-- ==== Sys2Proof/Word.lean ====
section
/-! DEFINITION. The word types of the block: every register value is a 64-bit vector, a data byte is 8 bits (R10). -/

namespace Sys2Proof

/-- `u64` of R10: the value of every register, of ACC and of every table entry. -/
abbrev Word := BitVec 64

/-- `u8` of R10: a data byte, a table index, the ARG field of a command. -/
abbrev Byte := BitVec 8

/-- The 32-bit command word of R70, and the data of a 4-byte access (R53). -/
abbrev CmdWord := BitVec 32

end Sys2Proof
end

