-- ==== Sys2Proof/Syntax.lean ====
section
/-! DEFINITION. The commands of the block, one constructor per row of spec/opcode_table.json (R73). -/

namespace Sys2Proof

/-- A decoded command (R73).  ARG is an 8-bit unsigned field (R70, R71); the commands that take no argument carry none.
Which arguments are legal is `Instr.wellFormed`. -/
inductive Instr where
  /-- NOP (R150). -/
  | nop
  /-- CONFIGURE (R104). -/
  | configure
  /-- START (R125). -/
  | start
  /-- FEED n: consume `n` lanes of DIN (R126). -/
  | feed (n : Byte)
  /-- FINAL (R127). -/
  | final
  /-- REFLECT n: reverse the low `n` bits of DIN (R143). -/
  | reflect (n : Byte)
  /-- RDTAB b: read table entry `b` (R106). -/
  | rdtab (b : Byte)
  /-- CLRERR (R151). -/
  | clrerr
  deriving DecidableEq, Repr

end Sys2Proof
end

