-- ==== Sys2Proof/Config.lean ====
section
/-! DEFINITION. What an implementation fixes: the parameters of R7, and the one value the spec leaves free (I13). -/

namespace Sys2Proof.Config

/-- `W_MAX` of R7: the widest legal CRC width, the width of every datapath register. -/
@[simp] abbrev wMax : Nat := 64

/-- `W_MIN` of R7: the smallest legal CRC width. -/
@[simp] abbrev wMin : Nat := 8

/-- `TABLE_ENTRIES` of R7. -/
@[simp] abbrev tableEntries : Nat := 256

/-- `FEED_MAX` of R7: most bytes one FEED consumes. -/
@[simp] abbrev feedMax : Nat := 8

/-- The widest operand REFLECT takes (R140, R143). -/
@[simp] abbrev reflectMax : Nat := 64

/-- The number of bytes of the register window (R50). -/
@[simp] abbrev windowSize : Nat := 256

/-- The first reserved offset of the window (R50, R56 (c)). -/
@[simp] abbrev firstReserved : Nat := 0x48

/-- The OPEN parameter behind `BASE` (R7, D2, I9): which 256-byte page the platform places the window in.
It has no body, so nothing can be proved about its value (notes/assumptions/5.md). -/
opaque basePage : Nat

/-- `BASE` of R7 and R50: the physical base address of the window, aligned to 256 bytes. -/
def base : Nat := windowSize * basePage

/-- `LATENCY` of R7, OPEN and unobservable (R196, I8): no definition of the model reads it
(notes/assumptions/6.md). -/
opaque latency : Nat

/-- FREE VALUE (I13, R167, R181): whether the `k`-th access that a reset interrupts is completed before the
reset, and so acknowledged, or dropped.  It has no body (notes/assumptions/4.md). -/
opaque interruptedAck : Nat → Bool

end Sys2Proof.Config
end

