-- ==== Sys2Proof/WellFormed.lean ====
section
/-! DEFINITION. `arg_legal` of R72: the legal ARG column of the opcode map (R73). -/

namespace Sys2Proof

/-- Whether a command's argument is legal (R73): 0 to 8 for FEED, 1 to 64 for REFLECT, any byte for RDTAB. -/
def Instr.wellFormed : Instr → Bool
  | .nop => true
  | .configure => true
  | .start => true
  | .feed n => n.toNat ≤ Config.feedMax
  | .final => true
  | .reflect n => 1 ≤ n.toNat && n.toNat ≤ Config.reflectMax
  | .rdtab _ => true
  | .clrerr => true

end Sys2Proof
end

