-- ==== Sys2Proof/Decode.lean ====
section
/-! DEFINITION. Decoding a value written to CMD, total and rejecting by name (R70 to R75), and the encoder (R76). -/

namespace Sys2Proof

/-- Why a value written to CMD is no command; each is a CmdError (R72, R74). -/
inductive Reject where
  /-- An 8-byte CMD write whose bits 63:32 are not zero. -/
  | upperHalf
  /-- RSV, bits 31:16 of the word, is not zero. -/
  | reservedBits
  /-- OPC is 0x08 to 0xFF. -/
  | reservedOpcode
  /-- ARG is not legal for the opcode. -/
  | illegalArg
  deriving DecidableEq, Repr

/-- The field OPC, bits 7:0 (R70). -/
def opcField (w : CmdWord) : Byte := w.extractLsb' 0 8

/-- The field ARG, bits 15:8 (R70). -/
def argField (w : CmdWord) : Byte := w.extractLsb' 8 8

/-- The field RSV, bits 31:16 (R70). -/
def rsvField (w : CmdWord) : BitVec 16 := w.extractLsb' 16 16

/-- A command that takes no argument: ARG must be 0 (R71). -/
def withoutArg (arg : Byte) (i : Instr) : Except Reject Instr :=
  if arg = 0#8 then .ok i else .error .illegalArg

/-- A command whose argument must be legal (R72). -/
def withArg (i : Instr) : Except Reject Instr :=
  if i.wellFormed then .ok i else .error .illegalArg

/-- The opcode map of R73. -/
def decodeFields (opc arg : Byte) : Except Reject Instr :=
  match opc.toNat with
  | 0x00 => withoutArg arg .nop
  | 0x01 => withoutArg arg .configure
  | 0x02 => withoutArg arg .start
  | 0x03 => withArg (.feed arg)
  | 0x04 => withoutArg arg .final
  | 0x05 => withArg (.reflect arg)
  | 0x06 => withArg (.rdtab arg)
  | 0x07 => withoutArg arg .clrerr
  | _ => .error .reservedOpcode

/-- The decoder of R72 on the value `v` of a CMD write (a 4-byte value is zero-extended): the upper half first,
then RSV, the opcode and the argument. -/
def decode (v : Word) : Except Reject Instr :=
  if v.extractLsb' 32 32 ≠ 0#32 then .error .upperHalf
  else
    let w : CmdWord := v.extractLsb' 0 32
    if rsvField w ≠ 0#16 then .error .reservedBits
    else decodeFields (opcField w) (argField w)

/-- The opcode of a command (R73). -/
def opcodeOf : Instr → Byte
  | .nop => 0x00#8
  | .configure => 0x01#8
  | .start => 0x02#8
  | .feed _ => 0x03#8
  | .final => 0x04#8
  | .reflect _ => 0x05#8
  | .rdtab _ => 0x06#8
  | .clrerr => 0x07#8

/-- The argument of a command, 0 where it takes none (R71). -/
def argumentOf : Instr → Byte
  | .nop => 0#8
  | .configure => 0#8
  | .start => 0#8
  | .feed n => n
  | .final => 0#8
  | .reflect n => n
  | .rdtab b => b
  | .clrerr => 0#8

/-- The command word of a command, RSV, ARG and OPC from the top: `(arg << 8) | OPC` (R70, R76). -/
def encode (i : Instr) : CmdWord := 0#16 ++ argumentOf i ++ opcodeOf i

/-- The 32-bit command word whose low `nbits` bits are those of `w`, every bit above them 0. -/
def tableWord (nbits w : Nat) : CmdWord := BitVec.ofNat 32 (w % 2 ^ nbits)

/-- The command the decoder reads from a 4-byte CMD write of the word `w` of `nbits` bits, numbered as
spec/opcode_table.json numbers them (R75: every command is one 32-bit write). -/
def decodeTableWord (nbits w : Nat) : Option Instr :=
  match decode ((tableWord nbits w).setWidth 64) with
  | .ok i => some i
  | .error _ => none

end Sys2Proof
end

