-- ==== Sys2Proof/Machine/State.lean ====
section
/-! DEFINITION. The state of the block as plain data (10_state.md), the host accesses waiting at its port, and reset. -/

namespace Sys2Proof.Machine

/-- A configuration, the six values of R17: the staged CFG_* registers (R23 to R27) and the active copy (R33)
are one record each.  The reserved bits of CFG_WIDTH and CFG_CTRL hold nothing, so they have no place here. -/
structure Cfg where
  /-- WIDTH, 7 bits (R23, R33). -/
  width : BitVec 7
  /-- The generator polynomial, its leading term implicit (R25). -/
  poly : Word
  /-- The register value before any byte (R26). -/
  init : Word
  /-- The final-XOR value (R27). -/
  xorout : Word
  /-- REFIN, bit 0 of CFG_CTRL (R24). -/
  refin : Bool
  /-- REFOUT, bit 1 of CFG_CTRL (R24). -/
  refout : Bool
  deriving DecidableEq, Repr

/-- The four flags of STATUS (R30); its bits 63:4 read as 0 and hold nothing. -/
structure Status where
  /-- READY, bit 0. -/
  ready : Bool
  /-- ERR_CFG, bit 1, sticky. -/
  errCfg : Bool
  /-- ERR_CMD, bit 2, sticky. -/
  errCmd : Bool
  /-- ERR_STATE, bit 3, sticky. -/
  errState : Bool
  deriving DecidableEq, Repr

/-- The nine registers of the window (R22). -/
inductive Reg where
  | cfgWidth | cfgCtrl | cfgPoly | cfgInit | cfgXorout | din | cmd | status | result
  deriving DecidableEq, Repr

/-- The errors a command raises (R14, R160). -/
inductive ErrorKind where
  /-- CfgError: CONFIGURE on a staged configuration that is not valid (R161). -/
  | cfg
  /-- CmdError: a malformed command word (R163). -/
  | cmd
  /-- StateError: a command that needs READY = 1 issued with READY = 0 (R162). -/
  | state
  deriving DecidableEq, Repr

/-- One access of the host to the window (R13): an offset, a size in bytes (any size; those that are not 4 or 8 are
bus errors) and, for a write, its value (of a 4-byte write bits 31:0 count). -/
inductive Access where
  | read (off : Byte) (size : Nat)
  | write (off : Byte) (size : Nat) (value : Word)
  deriving DecidableEq, Repr

/-- What arrives at the block (R9, R198): an access at the bus port, the reset input, or both at once (R167, R181). -/
inductive Event where
  | access (a : Access)
  | reset
  | resetDuring (a : Access)
  deriving DecidableEq, Repr

/-- What the port answers to one access (R197, R198). -/
inductive Response where
  /-- The data of a 4-byte read. -/
  | data32 (v : BitVec 32)
  /-- The data of an 8-byte read. -/
  | data64 (v : Word)
  /-- A write has completed. -/
  | done
  /-- `BusError(off)` (R14, R56). -/
  | busError (off : Byte)
  /-- An access a reset interrupted was dropped without an acknowledgement (R181). -/
  | dropped
  deriving DecidableEq, Repr

/-- The block.  `pending`, `responses` and `draws` are the model's own: the host's side of the port and the
counter of the one free value. -/
structure State where
  /-- The staged configuration, registers CFG_WIDTH to CFG_XOROUT (R22 to R27). -/
  staged : Cfg
  /-- DIN (R28). -/
  din : Word
  /-- STATUS (R30). -/
  status : Status
  /-- RESULT (R31). -/
  result : Word
  /-- The active configuration ACT_* (R33). -/
  act : Cfg
  /-- TABLE, 256 entries (R34). -/
  table : Vector Word 256
  /-- ACC, the running register (R35). -/
  acc : Word
  /-- What the host has sent and the port has not accepted yet, next first (R60). -/
  pending : List Event
  /-- What the port has answered, newest first (R197). -/
  responses : List Response
  /-- How many times the free value `Config.interruptedAck` has been drawn. -/
  draws : Nat
  deriving DecidableEq, Repr

/-- Why the machine stops.  There is no such reason: every access and every command word has a defined outcome
(93_implementation_defined.md section 2, R198), an error of a command is a STATUS bit and a bus error is an answer of
the port, and after either the port goes on (R195).  No one raises a fault, which is safe. -/
inductive Fault where
  deriving DecidableEq, Repr

/-- Why an instruction has no meaning. -/
inductive Refusal where
  /-- Raised by an arm of `exec` whose instruction is not modelled yet; safe.  No arm raises it: all eight are modelled. -/
  | notModelled (mnemonic : String)
  deriving DecidableEq, Repr

/-- The outcome of a command or a step. -/
abbrev Result := Host.Outcome State Fault Refusal

/-- The configuration fields at reset (R37). -/
def Cfg.zero : Cfg :=
  { width := 0#7, poly := 0#64, init := 0#64, xorout := 0#64, refin := false, refout := false }

/-- STATUS at reset (R37). -/
def Status.zero : Status := { ready := false, errCfg := false, errCmd := false, errState := false }

/-- What TABLE holds after reset: the spec leaves it unspecified (R34, R37); the model holds zeros, as I10 allows
(DESIGN CHOICE, notes/assumptions/1.md). -/
def resetTable : Vector Word 256 := Vector.replicate 256 0#64

/-- The block right after reset (R37, R180).  Nothing waits at the port and nothing has been answered. -/
def State.reset : State :=
  { staged := Cfg.zero
    din := 0#64
    status := Status.zero
    result := 0#64
    act := Cfg.zero
    table := resetTable
    acc := 0#64
    pending := []
    responses := []
    draws := 0 }

end Sys2Proof.Machine
end

