-- ==== Sys2Proof/Machine/Crc.lean ====
section
/-! DEFINITION. The arithmetic of the block: the named functions of R15, as total functions of their arguments. -/

namespace Sys2Proof.Machine

/-- `mask(w)` of R11. -/
def mask (w : Nat) : Word :=
  if w < 64 then (1#64 <<< w) - 1#64 else BitVec.allOnes 64

/-- Bits `k - 1` down to 0 of the `n`-bit reversal of `v`: bit `i` is `v[n-1-i]` (the loop of R140). -/
def reflectBits (v : Word) (n : Nat) : Nat → Word
  | 0 => 0#64
  | k + 1 => reflectBits v n k ||| (if v.getLsbD (n - 1 - k) then 1#64 <<< k else 0#64)

/-- `reflect(v, n)` of R140: the `n`-bit reversal of `v[n-1:0]`, zero-extended. -/
def reflect (v : Word) (n : Nat) : Word := reflectBits v n n

/-- `valid_config` of R100. -/
def validConfig (w : Nat) (poly init xo : Word) : Bool :=
  Config.wMin ≤ w && w ≤ Config.wMax
    && poly &&& ~~~(mask w) == 0#64
    && init &&& ~~~(mask w) == 0#64
    && xo &&& ~~~(mask w) == 0#64

/-- `valid_config` of the fields of a configuration. -/
def Cfg.valid (c : Cfg) : Bool := validConfig c.width.toNat c.poly c.init c.xorout

/-- One turn of the loop of R102: the top bit of a `w`-bit register leaves, and `poly` is XORed in if it was 1. -/
def divideBit (w : Nat) (poly r : Word) : Word :=
  if r.getLsbD (w - 1) then ((r <<< 1) ^^^ poly) &&& mask w else (r <<< 1) &&& mask w

/-- `k` turns of the loop of R102. -/
def divideBits (w : Nat) (poly : Word) : Nat → Word → Word
  | 0, r => r
  | k + 1, r => divideBits w poly k (divideBit w poly r)

/-- `table_entry(cfg, b)` of R102; both reflections are keyed on `refin` (90_conflicts.md C4, C5). -/
def tableEntry (c : Cfg) (b : Byte) : Word :=
  let w := c.width.toNat
  let x := if c.refin then reflect (b.setWidth 64) 8 else b.setWidth 64
  let r := divideBits w c.poly 8 ((x <<< (w - 8)) &&& mask w)
  if c.refin then reflect r w else r

/-- The whole table of a configuration, built at once (R104, R105). -/
def buildTable (c : Cfg) : Vector Word 256 :=
  ⟨((List.range 256).map fun b => tableEntry c (BitVec.ofNat 8 b)).toArray, by simp⟩

/-- `TABLE[b]` of R12. -/
def tableAt (t : Vector Word 256) (b : Byte) : Word := t[b.toNat]'(b.isLt)

/-- `crc_step(cfg, T, acc, d)` of R120. -/
def crcStep (c : Cfg) (t : Vector Word 256) (acc : Word) (d : Byte) : Word :=
  let w := c.width.toNat
  (if c.refin then (acc >>> 8) ^^^ tableAt t (acc.extractLsb' 0 8 ^^^ d)
    else (acc <<< 8) ^^^ tableAt t ((acc >>> (w - 8)).extractLsb' 0 8 ^^^ d)) &&& mask w

/-- `finalize(cfg, acc)` of R122: complement then XOR only where REFOUT is 0, and no reversal (90_conflicts.md C2). -/
def finalize (c : Cfg) (acc : Word) : Word :=
  (if c.refout then acc ^^^ c.xorout else ~~~acc ^^^ c.xorout) &&& mask c.width.toNat

end Sys2Proof.Machine
end

