-- ==== Sys2Proof/Machine/Operands.lean ====
section
/-! DEFINITION. The operands of the commands: ARG as a number, and the byte lanes of DIN (R28, R71, R126). -/

namespace Sys2Proof.Machine

/-- ARG read as an unsigned integer, never sign-extended, scaled or shifted (R71). -/
def argNat (a : Byte) : Nat := a.toNat

/-- Byte lane `k` of DIN, `DIN[8k+7:8k]` (R28). -/
def dinLane (din : Word) (k : Nat) : Byte := din.extractLsb' (8 * k) 8

/-- The running value after lanes 0 to `n - 1` of DIN, consumed in increasing order (R126). -/
def feedLanes (c : Cfg) (t : Vector Word 256) (din : Word) : Nat → Word → Word
  | 0, acc => acc
  | k + 1, acc => crcStep c t (feedLanes c t din k acc) (dinLane din k)

end Sys2Proof.Machine
end

