-- ==== Sys2Proof/Machine/Flags.lean ====
section
/-! DEFINITION. The flags: how STATUS and CFG_CTRL read as words, and every way a flag is set or cleared (R24, R30, R32). -/

namespace Sys2Proof.Machine

/-- STATUS as the host reads it: READY is bit 0, ERR_CFG 1, ERR_CMD 2, ERR_STATE 3, the rest 0 (R30). -/
def Status.toWord (f : Status) : Word :=
  0#60 ++ BitVec.ofBool f.errState ++ BitVec.ofBool f.errCmd ++ BitVec.ofBool f.errCfg ++ BitVec.ofBool f.ready

/-- The flags after an error is raised: its sticky bit is set, and a CfgError also clears READY (R14, R160). -/
def Status.raised (f : Status) : ErrorKind → Status
  | .cfg => { f with ready := false, errCfg := true }
  | .cmd => { f with errCmd := true }
  | .state => { f with errState := true }

/-- The flags after a CONFIGURE that passes validation: READY is set (R104). -/
def Status.configured (f : Status) : Status := { f with ready := true }

/-- The flags after CLRERR: the three sticky bits are cleared, READY is kept (R151). -/
def Status.cleared (f : Status) : Status :=
  { f with errCfg := false, errCmd := false, errState := false }

/-- CFG_CTRL as the host reads it: REFIN is bit 0, REFOUT bit 1, the rest 0 (R24). -/
def Cfg.ctrlWord (c : Cfg) : Word :=
  0#62 ++ BitVec.ofBool c.refout ++ BitVec.ofBool c.refin

/-- The staged flags after `v` is written to CFG_CTRL; bits 63:2 are ignored (R24). -/
def Cfg.withCtrl (c : Cfg) (v : Word) : Cfg :=
  { c with refin := v.getLsbD 0, refout := v.getLsbD 1 }

end Sys2Proof.Machine
end

