-- ==== Sys2Proof/Machine/Ops.lean ====
section
/-! DEFINITION. The named operations over the state: raising an error, the READY gate, the register window (reads, writes,
byte order, bus errors), the port's answers, and the reset input. -/

namespace Sys2Proof.Machine

/-- Raising CmdError, StateError or CfgError ends the command: the sticky bit is set, a CfgError also clears READY,
and nothing else changes (R14, R160, R168).  The block saves no state, changes no mode, jumps to no vector and has no
return from an error (R170); CLRERR clears the bits. -/
def raise (k : ErrorKind) (s : State) : State := { s with status := s.status.raised k }

/-- The test that START, FEED, FINAL and RDTAB begin with (R162). -/
def requireReady (s : State) (body : State) : State :=
  if s.status.ready then body else raise .state s

/-- The register a byte of the window belongs to, none from 0x48 on (R22, R50). -/
def regAt (off : Byte) : Option Reg :=
  match off.toNat / 8 with
  | 0 => some .cfgWidth
  | 1 => some .cfgCtrl
  | 2 => some .cfgPoly
  | 3 => some .cfgInit
  | 4 => some .cfgXorout
  | 5 => some .din
  | 6 => some .cmd
  | 7 => some .status
  | 8 => some .result
  | _ => none

/-- The offset of a register (R22). -/
def Reg.offset : Reg → Byte
  | .cfgWidth => 0x00#8
  | .cfgCtrl => 0x08#8
  | .cfgPoly => 0x10#8
  | .cfgInit => 0x18#8
  | .cfgXorout => 0x20#8
  | .din => 0x28#8
  | .cmd => 0x30#8
  | .status => 0x38#8
  | .result => 0x40#8

/-- The value of a register as the host reads it: reserved fields are 0, and so is CMD (R23 to R31, R54). -/
def readReg (r : Reg) (s : State) : Word :=
  match r with
  | .cfgWidth => s.staged.width.setWidth 64
  | .cfgCtrl => s.staged.ctrlWord
  | .cfgPoly => s.staged.poly
  | .cfgInit => s.staged.init
  | .cfgXorout => s.staged.xorout
  | .din => s.din
  | .cmd => 0#64
  | .status => s.status.toWord
  | .result => s.result

/-- Storing a 64-bit value in a writable register; reserved bits are ignored (R23 to R28, R55).  CMD holds nothing
(R29), and STATUS and RESULT are read-only (R30, R31), so nothing is stored there. -/
def writeReg (r : Reg) (v : Word) (s : State) : State :=
  match r with
  | .cfgWidth => { s with staged := { s.staged with width := v.extractLsb' 0 7 } }
  | .cfgCtrl => { s with staged := s.staged.withCtrl v }
  | .cfgPoly => { s with staged := { s.staged with poly := v } }
  | .cfgInit => { s with staged := { s.staged with init := v } }
  | .cfgXorout => { s with staged := { s.staged with xorout := v } }
  | .din => { s with din := v }
  | .cmd => s
  | .status => s
  | .result => s

/-- The value of the register that holds a byte of the window, 0 where there is none. -/
def registerOf (off : Byte) (s : State) : Word :=
  match regAt off with
  | some r => readReg r s
  | none => 0#64

/-- The byte of the window at an offset: byte `k` of a register is its bits `8k+7:8k` (R53). -/
def windowByte (s : State) (off : Byte) : Byte :=
  (registerOf off s).extractLsb' (8 * (off.toNat % 8)) 8

/-- Whether a 4-byte access at `off` names the upper half of its register (R53). -/
def upperHalfAt (off : Byte) : Bool := off.toNat % 8 == 4

/-- The half of a register that a 4-byte access at `off` moves (R53). -/
def halfAt (off : Byte) (x : Word) : BitVec 32 :=
  if upperHalfAt off then x.extractLsb' 32 32 else x.extractLsb' 0 32

/-- A register's value with the half that a 4-byte write at `off` names replaced (R53, R55). -/
def withHalfAt (off : Byte) (h : BitVec 32) (x : Word) : Word :=
  if upperHalfAt off then h ++ x.extractLsb' 0 32 else x.extractLsb' 32 32 ++ h

/-- The value a register holds after a legal write of `size` bytes at `off` to it (R55). -/
def mergeWrite (off : Byte) (size : Nat) (value old : Word) : Word :=
  if size = 4 then withHalfAt off (value.extractLsb' 0 32) old else value

/-- The value a legal write to CMD hands to the decoder: a 4-byte value is zero-extended (R72). -/
def commandValue (size : Nat) (value : Word) : Word :=
  if size = 4 then (value.extractLsb' 0 32).setWidth 64 else value

/-- The offset of an access. -/
def Access.off : Access → Byte
  | .read off _ => off
  | .write off _ _ => off

/-- R56 (a), (b) and (c): the size, the alignment, the reserved offsets. -/
def badAccess (off : Byte) (size : Nat) : Bool :=
  !(size == 4 || size == 8) || off.toNat % size != 0 || Config.firstReserved ≤ off.toNat

/-- R56 (d) and (e): a write to STATUS or RESULT, a 4-byte write at 0x34. -/
def badWrite (off : Byte) (size : Nat) : Bool :=
  (0x38 ≤ off.toNat && off.toNat ≤ 0x47) || (size == 4 && off.toNat == 0x34)

/-- Whether an access raises BusError (R56). -/
def Access.isBusError : Access → Bool
  | .read off size => badAccess off size
  | .write off size _ => badAccess off size || badWrite off size

/-- The data a legal read returns (R53, R54). -/
def readData (off : Byte) (size : Nat) (s : State) : Response :=
  if size = 4 then .data32 (halfAt off (registerOf off s)) else .data64 (registerOf off s)

/-- What the port answers to an access (R54, R55, R56). -/
def completion (a : Access) (s : State) : Response :=
  if a.isBusError then .busError a.off
  else match a with
    | .read off size => readData off size s
    | .write _ _ _ => .done

/-- The port answers. -/
def respond (r : Response) (s : State) : State := { s with responses := r :: s.responses }

/-- The reset input: every piece of the block's state takes its reset value (R180); the host's side of the port
and the free value's counter are not the block's and stay. -/
def applyReset (s : State) : State :=
  { State.reset with pending := s.pending, responses := s.responses, draws := s.draws }

/-- A reset that arrives with an access: the access is completed before the reset, and so answered, or dropped
(R167, R181); which of the two the host sees is a free value (I13).  Either way the block is in its reset state. -/
def applyResetDuring (a : Access) (s : State) : State :=
  let answer := if Config.interruptedAck s.draws then completion a s else .dropped
  { respond answer (applyReset s) with draws := s.draws + 1 }

/-- The offset in the window of a physical address, none for an address outside the window (R50). -/
def windowOffset (addr : Nat) : Option Byte :=
  if Config.base ≤ addr ∧ addr < Config.base + Config.windowSize
  then some (BitVec.ofNat 8 (addr - Config.base)) else none

/-- `MemRead(addr, n)` of R13 as the access the port sees, none where the address is not the block's. -/
def memRead (addr size : Nat) : Option Access := (windowOffset addr).map fun off => .read off size

/-- `MemWrite(addr, n, v)` of R13 as the access the port sees, none where the address is not the block's. -/
def memWrite (addr size : Nat) (v : Word) : Option Access :=
  (windowOffset addr).map fun off => .write off size v

end Sys2Proof.Machine
end

