-- ==== Sys2Proof/Machine/Accumulate.lean ====
section
/-! DEFINITION. The accumulation family: START (R125), FEED (R126) and FINAL (R127). -/

namespace Sys2Proof.Machine

/-- START (R125): ACT_INIT is loaded as stored, whatever REFIN is. -/
def execStart (s : State) : Result :=
  .next (requireReady s { s with acc := s.act.init })

/-- FEED n (R126).  An illegal `n` is a CmdError, checked before READY (R165); the decoder rejects such a word by
itself, so this branch is met only by a term that `Instr.wellFormed` refuses. -/
def execFeed (n : Byte) (s : State) : Result :=
  .next (if argNat n ≤ Config.feedMax then
      requireReady s { s with acc := feedLanes s.act s.table s.din (argNat n) s.acc }
    else raise .cmd s)

/-- FINAL (R127): ACC is read and kept. -/
def execFinal (s : State) : Result :=
  .next (requireReady s { s with result := finalize s.act s.acc })

end Sys2Proof.Machine
end

