-- ==== Sys2Proof/Machine/Configure.lean ====
section
/-! DEFINITION. The configuration and table family: CONFIGURE (R104) and RDTAB (R106). -/

namespace Sys2Proof.Machine

/-- The state after a CONFIGURE that passes validation: ACT, TABLE and ACC are loaded, READY is set (R104, R105). -/
def latchConfiguration (s : State) : State :=
  { s with
    act := s.staged
    table := buildTable s.staged
    acc := s.staged.init
    status := s.status.configured }

/-- CONFIGURE (R104, R161). -/
def execConfigure (s : State) : Result :=
  .next (if s.staged.valid then latchConfiguration s else raise .cfg s)

/-- RDTAB b (R106). -/
def execRdtab (b : Byte) (s : State) : Result :=
  .next (requireReady s { s with result := tableAt s.table b })

end Sys2Proof.Machine
end

