-- ==== Sys2Proof/Machine/Control.lean ====
section
/-! DEFINITION. The control commands: NOP (R150) and CLRERR (R151). -/

namespace Sys2Proof.Machine

/-- NOP (R150). -/
def execNop (s : State) : Result := .next s

/-- CLRERR (R151). -/
def execClrerr (s : State) : Result := .next { s with status := s.status.cleared }

end Sys2Proof.Machine
end

