-- ==== Sys2Proof/Machine/Reflect.lean ====
section
/-! DEFINITION. The bit-reflection command: REFLECT (R143). -/

namespace Sys2Proof.Machine

/-- REFLECT n (R143): it needs no READY.  An illegal `n` is a CmdError; the decoder rejects such a word by itself. -/
def execReflect (n : Byte) (s : State) : Result :=
  .next (if 1 ≤ argNat n ∧ argNat n ≤ Config.reflectMax then
      { s with result := reflect s.din (argNat n) }
    else raise .cmd s)

end Sys2Proof.Machine
end

