-- ==== Sys2Proof/Machine/Dispatch.lean ====
section
/-! DEFINITION. One arm per command, each one call of its meaning. -/

namespace Sys2Proof.Machine

def exec (i : Instr) (s : State) : Host.Outcome State Fault Refusal :=
  match i with
  | .nop => Sys2Proof.Machine.execNop s
  | .configure => Sys2Proof.Machine.execConfigure s
  | .start => Sys2Proof.Machine.execStart s
  | .feed n => Sys2Proof.Machine.execFeed n s
  | .final => Sys2Proof.Machine.execFinal s
  | .reflect n => Sys2Proof.Machine.execReflect n s
  | .rdtab b => Sys2Proof.Machine.execRdtab b s
  | .clrerr => Sys2Proof.Machine.execClrerr s

end Sys2Proof.Machine
end

