-- ==== Sys2Proof/Machine/Bus.lean ====
section
/-! DEFINITION. The bus port: what one access does, with the command a CMD write issues, and what one event does. -/

namespace Sys2Proof.Machine

/-- A value written to CMD issues one command (R72): a malformed word is a CmdError, any other is executed.  Bus
errors come before this, and StateError and CfgError after it, in the commands themselves (R165). -/
def issueCommand (v : Word) (s : State) : Result :=
  match decode v with
  | .ok i => exec i s
  | .error _ => .next (raise .cmd s)

/-- A legal write (R55): to CMD it issues a command, to any other register it stores. -/
def performWrite (off : Byte) (size : Nat) (value : Word) (s : State) : Result :=
  match regAt off with
  | some .cmd => issueCommand (commandValue size value) s
  | some r => .next (writeReg r (mergeWrite off size value (readReg r s)) s)
  | none => .next s

/-- One access (R54 to R57).  The answer of a write is recorded together with its effect: the port completes the
write only once the command it issues has fully taken effect, and accepts no other access in between (R190), so no
order between the two can be seen. -/
def performAccess (a : Access) (s : State) : Result :=
  let answered := respond (completion a s) s
  if a.isBusError then .next answered
  else match a with
    | .read _ _ => .next answered
    | .write off size value => performWrite off size value answered

/-- One event at the block (R9, R198). -/
def performEvent (e : Event) (s : State) : Result :=
  match e with
  | .access a => performAccess a s
  | .reset => .next (applyReset s)
  | .resetDuring a => .next (applyResetDuring a s)

/-- The port accepts the next event in order (R60); where the host sends nothing, nothing changes (R9). -/
def acceptNext (s : State) : Result :=
  match s.pending with
  | [] => .next s
  | e :: rest => performEvent e { s with pending := rest }

/-- The 4-byte write of a command word to CMD (`CMD m` of R77). -/
def commandWrite (w : CmdWord) : Access := .write 0x30#8 4 (w.setWidth 64)

end Sys2Proof.Machine
end

