-- ==== Sys2Proof/Machine/Step.lean ====
section
/-! DEFINITION. One step of the block: the next event at its port. -/

namespace Sys2Proof.Machine

/-- One step: the port accepts and completes the next event the host sends (R60, R190). -/
def step (s : State) : Host.Outcome State Fault Refusal := acceptNext s

/-- `s` with a 4-byte CMD write of the word put before everything the host has pending, so that the very next step
runs that command.  The block fetches nothing (R21): its program is the host's sequence of accesses
(notes/assumptions/3.md). -/
def State.withFetchWord (s : State) (nbits w : Nat) : State :=
  { s with pending := .access (commandWrite (tableWord nbits w)) :: s.pending }

end Sys2Proof.Machine
end

