-- ==== Sys2Proof/Safety.lean ====
section
/-! DEFINITION. The terms claims are made in: the invariant of R36, what the host can tell apart, and what the next
event at the port is. -/

namespace Sys2Proof.Machine

/-- The invariant of R36: while READY = 1 the active configuration is valid, TABLE is its table and ACC fits in its width.
With READY = 0 nothing is asked of them (R33, R34, R35). -/
def ReadyInv (s : State) : Prop :=
  s.status.ready = true →
    s.act.valid = true ∧ (∀ b : Byte, tableAt s.table b = tableEntry s.act b) ∧ s.acc.toNat < 2 ^ s.act.width.toNat

/-- Two states that the host cannot tell apart: every register of the window and the host's side of the port agree,
and ACT, TABLE and ACC agree where READY = 1 (R33, R34, R37: they are unobservable while READY = 0). -/
structure SameToHost (s t : State) : Prop where
  staged : s.staged = t.staged
  din : s.din = t.din
  status : s.status = t.status
  result : s.result = t.result
  pending : s.pending = t.pending
  responses : s.responses = t.responses
  draws : s.draws = t.draws
  act : s.status.ready = true → s.act = t.act
  table : s.status.ready = true → s.table = t.table
  acc : s.status.ready = true → s.acc = t.acc

/-- Whether the next event is an assertion of the reset input (R180, R181). -/
def nextIsReset (s : State) : Bool :=
  match s.pending with
  | .reset :: _ => true
  | .resetDuring _ :: _ => true
  | _ => false

/-- The value the next event writes to CMD, if it is a legal CMD write (R55). -/
def nextCommandValue (s : State) : Option Word :=
  match s.pending with
  | .access (.write off size v) :: _ =>
    if off = 0x30#8 ∧ (size = 4 ∨ size = 8) then some (commandValue size v) else none
  | _ => none

/-- The command the next event issues, if it is a legal CMD write of a well-formed word (R72). -/
def nextCommand (s : State) : Option Instr :=
  match nextCommandValue s with
  | none => none
  | some v =>
    match decode v with
    | .ok i => some i
    | .error _ => none

/-- The accesses of one group of a message: `n` bytes written to DIN, then `FEED n` (`FEEDW v, n` of R78). -/
def feedAccesses (g : Word × Byte) : List Event :=
  [.access (.write 0x28#8 8 g.1), .access (commandWrite (encode (.feed g.2)))]

/-- The bytes of one group: lanes 0 to `n - 1` (R58). -/
def groupBytes (g : Word × Byte) : List Byte := (List.range g.2.toNat).map (dinLane g.1)

/-- The command sequence of R128: START, a DIN write and a FEED for each group of bytes, FINAL. -/
def calculateAccesses (groups : List (Word × Byte)) : List Event :=
  .access (commandWrite (encode .start)) ::
    (groups.flatMap feedAccesses ++ [.access (commandWrite (encode .final))])

/-- `calculate` of R128 under a configuration: the fold of the step over the bytes, then finalization. -/
def calculate (c : Cfg) (bytes : List Byte) : Word :=
  finalize c (bytes.foldl (crcStep c (buildTable c)) c.init)

/-- How many low bits of a register a write can change: 7 of CFG_WIDTH, 2 of CFG_CTRL, 64 of the other four. -/
def writableBits : Reg → Nat
  | .cfgWidth => 7
  | .cfgCtrl => 2
  | .cfgPoly => 64
  | .cfgInit => 64
  | .cfgXorout => 64
  | .din => 64
  | .cmd => 0
  | .status => 0
  | .result => 0

/-- The loop of the classic reflected table (93_implementation_defined.md G1): shift right, XOR `poly` in if a 1 left. -/
def rightShiftBits (poly : Word) : Nat → Word → Word
  | 0, r => r
  | k + 1, r => rightShiftBits poly k (if r.getLsbD 0 then (r >>> 1) ^^^ poly else r >>> 1)

end Sys2Proof.Machine
end

