-- ==== Sys2Proof/Certificates/Slice0/Obligations.lean ====
section
/-! DEFINITION. The statements for the provers, one definition each; OBLIGATIONS.json says which rule each one formalises. -/

open Sys2Proof Sys2Proof.Machine

/-! ### The commands: result, frame and completion -/

/-- R150: NOP does nothing, in any state; its word is 0x00000000, and any other word with OPC 0 is a CmdError. -/
def Obligations.NopChangesNothing : Prop :=
  decode 0x00000000#64 = .ok .nop ∧ (∀ s : State, exec .nop s = .next s) ∧
  ∀ (w : CmdWord) (s : State), opcField w = 0x00#8 → w ≠ 0x00000000#32 →
    issueCommand (w.setWidth 64) s = .next { s with status := { s.status with errCmd := true } }

/-- R151: CLRERR clears the three sticky bits and changes nothing else, READY among it; its word is 0x00000007, and any
other word with OPC 7 sets ERR_CMD and leaves the other bits as they were. -/
def Obligations.ClrerrClearsTheStickyBits : Prop :=
  decode 0x00000007#64 = .ok .clrerr ∧
  (∀ s : State, exec .clrerr s =
    .next { s with status := { ready := s.status.ready, errCfg := false, errCmd := false, errState := false } }) ∧
  ∀ (w : CmdWord) (s : State), opcField w = 0x07#8 → w ≠ 0x00000007#32 →
    issueCommand (w.setWidth 64) s = .next { s with status := { s.status with errCmd := true } }

/-- R125: with READY = 1 START loads ACC with ACT_INIT as stored and changes nothing else; with READY = 0 it is a
StateError; its word is 0x00000002, and any other word with OPC 2 is a CmdError. -/
def Obligations.StartLoadsTheInitialValue : Prop :=
  decode 0x00000002#64 = .ok .start ∧
  (∀ s : State, s.status.ready = true → exec .start s = .next { s with acc := s.act.init }) ∧
  (∀ s : State, s.status.ready = false →
    exec .start s = .next { s with status := { s.status with errState := true } }) ∧
  ∀ (w : CmdWord) (s : State), opcField w = 0x02#8 → w ≠ 0x00000002#32 →
    issueCommand (w.setWidth 64) s = .next { s with status := { s.status with errCmd := true } }

/-- R126: with READY = 1 FEED n (n from 0 to 8) folds the step over lanes 0 to n - 1 of DIN in increasing order into ACC
and changes nothing else, so FEED 0 leaves the state as it is; with READY = 0 it is a StateError and consumes no byte;
n above 8 is a CmdError; and FEED 8 gives the ACC of eight FEED 1 with the bytes in lane 0. -/
def Obligations.FeedConsumesTheLanesInOrder : Prop :=
  (∀ n : Byte, n.toNat ≤ 8 → decode (0#48 ++ n ++ 0x03#8) = .ok (.feed n)) ∧
  (∀ (n : Byte) (s : State), n.toNat ≤ 8 → s.status.ready = true →
    exec (.feed n) s = .next { s with
      acc := (List.range n.toNat).foldl (fun a k => crcStep s.act s.table a (s.din.extractLsb' (8 * k) 8)) s.acc }) ∧
  (∀ s : State, s.status.ready = true → exec (.feed 0#8) s = .next s) ∧
  (∀ (n : Byte) (s : State), n.toNat ≤ 8 → s.status.ready = false →
    exec (.feed n) s = .next { s with status := { s.status with errState := true } }) ∧
  (∀ (n : Byte) (s : State), 8 < n.toNat →
    issueCommand (0#48 ++ n ++ 0x03#8) s = .next { s with status := { s.status with errCmd := true } }) ∧
  ∀ s : State, s.status.ready = true → ∃ t, exec (.feed 8#8) s = .next t ∧
    t.acc = (List.range 8).foldl (fun a k =>
      match exec (.feed 1#8) { s with din := (s.din.extractLsb' (8 * k) 8).setWidth 64, acc := a } with
      | .next u => u.acc
      | _ => a) s.acc

/-- R127 with R122: with READY = 1 FINAL writes RESULT, whose bit i below ACT_WIDTH is bit i of ACC XOR bit i of
ACT_XOROUT, complemented exactly when REFOUT is 0, and whose bits from ACT_WIDTH on are 0; ACC and everything else
are kept.  With READY = 0 it is a StateError, and any word with OPC 4 but 0x00000004 is a CmdError. -/
def Obligations.FinalWritesTheChecksum : Prop :=
  decode 0x00000004#64 = .ok .final ∧
  (∀ s : State, s.status.ready = true → ∃ r : Word, exec .final s = .next { s with result := r } ∧
    ∀ i : Nat, i < 64 → r.getLsbD i = (decide (i < s.act.width.toNat) &&
      ((s.acc.getLsbD i ^^ s.act.xorout.getLsbD i) ^^ !s.act.refout))) ∧
  (∀ s : State, s.status.ready = false →
    exec .final s = .next { s with status := { s.status with errState := true } }) ∧
  ∀ (w : CmdWord) (s : State), opcField w = 0x04#8 → w ≠ 0x00000004#32 →
    issueCommand (w.setWidth 64) s = .next { s with status := { s.status with errCmd := true } }

/-- R143 with R140: REFLECT n (n from 1 to 64), with READY 0 or 1, writes RESULT, whose bit i is bit n - 1 - i of DIN for
i below n and 0 from n on, and changes nothing else; n = 0 and n above 64 are CmdErrors. -/
def Obligations.ReflectReversesTheLowBitsOfDin : Prop :=
  (∀ n : Byte, 1 ≤ n.toNat → n.toNat ≤ 64 → decode (0#48 ++ n ++ 0x05#8) = .ok (.reflect n)) ∧
  (∀ (n : Byte) (s : State), 1 ≤ n.toNat → n.toNat ≤ 64 → ∃ r : Word,
    exec (.reflect n) s = .next { s with result := r } ∧
    ∀ i : Nat, i < 64 → r.getLsbD i = (decide (i < n.toNat) && s.din.getLsbD (n.toNat - 1 - i))) ∧
  ∀ (n : Byte) (s : State), n.toNat = 0 ∨ 64 < n.toNat →
    issueCommand (0#48 ++ n ++ 0x05#8) s = .next { s with status := { s.status with errCmd := true } }

/-- R106: with READY = 1 RDTAB b writes TABLE[b] to RESULT and changes nothing else, and where R36 holds that is the table
entry of the active configuration, 0 from bit ACT_WIDTH on, and 0 for b = 0; with READY = 0 it is a StateError.  Every
ARG is legal, and a word with a reserved bit set is a CmdError. -/
def Obligations.RdtabReadsOneEntry : Prop :=
  (∀ b : Byte, decode (0#48 ++ b ++ 0x06#8) = .ok (.rdtab b)) ∧
  (∀ (b : Byte) (s : State), s.status.ready = true →
    exec (.rdtab b) s = .next { s with result := tableAt s.table b }) ∧
  (∀ (b : Byte) (s : State), s.status.ready = true → ReadyInv s → ∃ t, exec (.rdtab b) s = .next t ∧
    t.result = tableEntry s.act b ∧ (∀ i : Nat, s.act.width.toNat ≤ i → t.result.getLsbD i = false) ∧
    (b = 0#8 → t.result = 0#64)) ∧
  (∀ (b : Byte) (s : State), s.status.ready = false →
    exec (.rdtab b) s = .next { s with status := { s.status with errState := true } }) ∧
  ∀ (w : CmdWord) (s : State), opcField w = 0x06#8 → rsvField w ≠ 0#16 →
    issueCommand (w.setWidth 64) s = .next { s with status := { s.status with errCmd := true } }

/-- R104: on a valid staged configuration (validity spelled out bit by bit) CONFIGURE copies it to ACT, makes every TABLE
entry the table entry of that configuration, loads ACC with the initial value, sets READY and changes nothing else, and
issued again it changes nothing more; otherwise it clears READY, sets ERR_CFG and changes nothing else.  Any word with
OPC 1 but 0x00000001 is a CmdError. -/
def Obligations.ConfigureLatchesAndBuildsTheTable : Prop :=
  decode 0x00000001#64 = .ok .configure ∧
  (∀ s : State, 8 ≤ s.staged.width.toNat → s.staged.width.toNat ≤ 64 →
    (∀ i : Nat, s.staged.width.toNat ≤ i → s.staged.poly.getLsbD i = false ∧ s.staged.init.getLsbD i = false ∧
      s.staged.xorout.getLsbD i = false) →
    ∃ tab : Vector Word 256, (∀ b : Byte, tableAt tab b = tableEntry s.staged b) ∧
      exec .configure s = .next { s with act := s.staged, table := tab, acc := s.staged.init,
                                         status := { s.status with ready := true } } ∧
      ∀ t, exec .configure s = .next t → exec .configure t = .next t) ∧
  (∀ s : State, (s.staged.width.toNat < 8 ∨ 64 < s.staged.width.toNat ∨
      ∃ i : Nat, s.staged.width.toNat ≤ i ∧ (s.staged.poly.getLsbD i = true ∨ s.staged.init.getLsbD i = true ∨
        s.staged.xorout.getLsbD i = true)) →
    exec .configure s = .next { s with status := { s.status with ready := false, errCfg := true } }) ∧
  ∀ (w : CmdWord) (s : State), opcField w = 0x01#8 → w ≠ 0x00000001#32 →
    issueCommand (w.setWidth 64) s = .next { s with status := { s.status with errCmd := true } }

/-- Every command that completes leaves every byte of the window but those of STATUS and RESULT as it was (no command
stores to CFG_* or DIN); RESULT's bytes too for NOP, CONFIGURE, START, FEED and CLRERR; STATUS's bytes too for NOP, for a
legal REFLECT, and for START, FEED, FINAL and RDTAB with READY = 1. -/
def Obligations.CommandsLeaveTheOtherWindowBytes : Prop :=
  (∀ (i : Instr) (s t : State) (off : Byte), exec i s = .next t → off.toNat < 0x38 ∨ 0x47 < off.toNat →
    windowByte t off = windowByte s off) ∧
  (∀ (i : Instr) (s t : State) (off : Byte), exec i s = .next t →
    i = .nop ∨ i = .configure ∨ i = .start ∨ (∃ n, i = .feed n) ∨ i = .clrerr → off.toNat < 0x38 ∨ 0x3F < off.toNat →
    windowByte t off = windowByte s off) ∧
  ∀ (i : Instr) (s t : State) (off : Byte), exec i s = .next t → i.wellFormed = true →
    i = .nop ∨ (∃ n, i = .reflect n) ∨
      (s.status.ready = true ∧ (i = .start ∨ (∃ n, i = .feed n) ∨ i = .final ∨ ∃ b, i = .rdtab b)) →
    off.toNat < 0x40 ∨ 0x47 < off.toNat → windowByte t off = windowByte s off

/-- R28, R30, R31, R33, R34, R35: no command changes a staged register, DIN or anything on the host's side of the port; ACT and TABLE change only by
CONFIGURE, ACC only by CONFIGURE, START and FEED, RESULT only by FINAL, REFLECT and RDTAB, READY only by CONFIGURE. -/
def Obligations.CommandsWriteOnlyTheirOwnState : Prop :=
  ∀ (i : Instr) (s t : State), exec i s = .next t →
    t.staged = s.staged ∧ t.din = s.din ∧ t.pending = s.pending ∧ t.responses = s.responses ∧ t.draws = s.draws ∧
    (i ≠ .configure → t.act = s.act ∧ t.table = s.table ∧ t.status.ready = s.status.ready) ∧
    (i ≠ .configure → i ≠ .start → (∀ n, i ≠ .feed n) → t.acc = s.acc) ∧
    (i ≠ .final → (∀ n, i ≠ .reflect n) → (∀ b, i ≠ .rdtab b) → t.result = s.result)

/-! ### Encoding -/

/-- Every well-formed command, with every argument its encoding admits, decodes from its own word (R73, R76). -/
def Obligations.DecodingAnEncodedCommandGivesItBack : Prop :=
  ∀ i : Instr, i.wellFormed = true → decode ((encode i).setWidth 64) = .ok i

/-- R73: the values the decoder accepts are exactly the word patterns of the opcode map, each for its own command, with
nothing above bit 31; and the commands that need READY (that raise StateError without it) are START, FEED, FINAL and
RDTAB. -/
def Obligations.OpcodeMapIsExact : Prop :=
  (∀ (v : Word) (i : Instr), decode v = .ok i ↔
    (v = 0x00000000#64 ∧ i = .nop) ∨ (v = 0x00000001#64 ∧ i = .configure) ∨ (v = 0x00000002#64 ∧ i = .start) ∨
    (∃ n : Byte, n.toNat ≤ 8 ∧ v = 0#48 ++ n ++ 0x03#8 ∧ i = .feed n) ∨ (v = 0x00000004#64 ∧ i = .final) ∨
    (∃ n : Byte, 1 ≤ n.toNat ∧ n.toNat ≤ 64 ∧ v = 0#48 ++ n ++ 0x05#8 ∧ i = .reflect n) ∨
    (∃ b : Byte, v = 0#48 ++ b ++ 0x06#8 ∧ i = .rdtab b) ∨ (v = 0x00000007#64 ∧ i = .clrerr)) ∧
  ∀ (i : Instr) (s t : State), i.wellFormed = true → s.status.ready = false → s.status.errState = false →
    exec i s = .next t →
    (t.status.errState = true ↔ i = .start ∨ (∃ n, i = .feed n) ∨ i = .final ∨ ∃ b, i = .rdtab b)

/-- R74: each class of illegal words is a CmdError with no other effect, and a value in none of them is executed. -/
def Obligations.IllegalWordsAreCmdErrors : Prop :=
  ∀ (v : Word) (s : State),
    let upper := v.extractLsb' 32 32
    let rsv := v.extractLsb' 16 16
    let arg := (v.extractLsb' 8 8).toNat
    let opc := (v.extractLsb' 0 8).toNat
    let illegal := upper ≠ 0#32 ∨ rsv ≠ 0#16 ∨ 0x08 ≤ opc ∨
      ((opc = 0 ∨ opc = 1 ∨ opc = 2 ∨ opc = 4 ∨ opc = 7) ∧ arg ≠ 0) ∨ (opc = 3 ∧ 9 ≤ arg) ∨
      (opc = 5 ∧ (arg = 0 ∨ 65 ≤ arg))
    (illegal → issueCommand v s = .next { s with status := { s.status with errCmd := true } }) ∧
    (¬illegal → ∃ i : Instr, i.wellFormed = true ∧ decode v = .ok i ∧ issueCommand v s = exec i s)

/-- R70, R76: a command word is `(arg << 8) | OPC`, its RSV field 0. -/
def Obligations.EncodedWordsHaveTheThreeFields : Prop :=
  ∀ i : Instr, encode i = ((argumentOf i).setWidth 32 <<< 8) ||| (opcodeOf i).setWidth 32 ∧
    rsvField (encode i) = 0#16 ∧ argField (encode i) = argumentOf i ∧ opcField (encode i) = opcodeOf i

/-- A few words written out from the opcode map (R73, R76) decode to the commands they stand for. -/
def Obligations.SampleWordsDecode : Prop :=
  decode 0x00000803#64 = .ok (.feed 8#8) ∧ decode 0x00004005#64 = .ok (.reflect 64#8) ∧
  decode 0x0000FF06#64 = .ok (.rdtab 255#8) ∧ decode 0x00000001#64 = .ok .configure ∧
  decode 0x00000007#64 = .ok .clrerr ∧ decode 0x00000903#64 = .error .illegalArg ∧
  decode 0x00010002#64 = .error .reservedBits ∧ decode 0x00000008#64 = .error .reservedOpcode ∧
  decode 0x0000000100000004#64 = .error .upperHalf

/-! ### The port -/

/-- A legal CMD write whose value decodes to a command runs exactly that command, on the state with the write taken off
the port and answered; a 4-byte write offers its low word, an 8-byte write all of its value (R55, R72, R190). -/
def Obligations.StepRunsTheDecodedCommand : Prop :=
  (∀ (s : State) (rest : List Event) (v : Word) (i : Instr), s.pending = .access (.write 0x30#8 4 v) :: rest →
    decode ((v.extractLsb' 0 32).setWidth 64) = .ok i →
    step s = exec i { s with pending := rest, responses := .done :: s.responses }) ∧
  ∀ (s : State) (rest : List Event) (v : Word) (i : Instr), s.pending = .access (.write 0x30#8 8 v) :: rest →
    decode v = .ok i → step s = exec i { s with pending := rest, responses := .done :: s.responses }

/-- A legal CMD write of a value the decoder rejects sets ERR_CMD, is answered, and does nothing else (R72, R163). -/
def Obligations.StepRejectsMalformedCommands : Prop :=
  (∀ (s : State) (rest : List Event) (v : Word) (e : Reject), s.pending = .access (.write 0x30#8 4 v) :: rest →
    decode ((v.extractLsb' 0 32).setWidth 64) = .error e →
    step s = .next { s with pending := rest, responses := .done :: s.responses,
                            status := { s.status with errCmd := true } }) ∧
  ∀ (s : State) (rest : List Event) (v : Word) (e : Reject), s.pending = .access (.write 0x30#8 8 v) :: rest →
    decode v = .error e →
    step s = .next { s with pending := rest, responses := .done :: s.responses,
                            status := { s.status with errCmd := true } }

/-- R56: an access is a bus error exactly in the cases (a) to (e), and then the block's state is unchanged and the answer is
`BusError(off)`; in no other case is the answer a bus error, at any offset. -/
def Obligations.BusErrorsExactlyAsListed : Prop :=
  (∀ (s : State) (rest : List Event) (off : Byte) (n : Nat), s.pending = .access (.read off n) :: rest →
    ((¬(n = 4 ∨ n = 8) ∨ off.toNat % n ≠ 0 ∨ 0x48 ≤ off.toNat) →
      step s = .next { s with pending := rest, responses := .busError off :: s.responses }) ∧
    (¬(¬(n = 4 ∨ n = 8) ∨ off.toNat % n ≠ 0 ∨ 0x48 ≤ off.toNat) →
      ∃ t r, step s = .next t ∧ t.responses = r :: s.responses ∧ ∀ o : Byte, r ≠ .busError o)) ∧
  ∀ (s : State) (rest : List Event) (off : Byte) (n : Nat) (v : Word), s.pending = .access (.write off n v) :: rest →
    ((¬(n = 4 ∨ n = 8) ∨ off.toNat % n ≠ 0 ∨ 0x48 ≤ off.toNat ∨ (0x38 ≤ off.toNat ∧ off.toNat ≤ 0x47) ∨
        (n = 4 ∧ off.toNat = 0x34)) →
      step s = .next { s with pending := rest, responses := .busError off :: s.responses }) ∧
    (¬(¬(n = 4 ∨ n = 8) ∨ off.toNat % n ≠ 0 ∨ 0x48 ≤ off.toNat ∨ (0x38 ≤ off.toNat ∧ off.toNat ≤ 0x47) ∨
        (n = 4 ∧ off.toNat = 0x34)) →
      ∃ t, step s = .next t ∧ t.responses = .done :: s.responses)

/-- R54: a legal read at a register's offset returns its current value (8 bytes), its low half, or at 4 above it its
high half, and changes nothing; reserved fields read as 0, CMD does in both halves, and the fields of CFG_WIDTH, CFG_CTRL
and STATUS and the whole of CFG_POLY, CFG_INIT, CFG_XOROUT, DIN and RESULT read as they stand (R23 to R31). -/
def Obligations.ReadsReturnTheRegisterAndChangeNothing : Prop :=
  (∀ (s : State) (rest : List Event) (r : Reg), s.pending = .access (.read r.offset 8) :: rest →
    step s = .next { s with pending := rest, responses := .data64 (readReg r s) :: s.responses }) ∧
  (∀ (s : State) (rest : List Event) (r : Reg), s.pending = .access (.read r.offset 4) :: rest →
    step s = .next { s with pending := rest,
                            responses := .data32 ((readReg r s).extractLsb' 0 32) :: s.responses }) ∧
  (∀ (s : State) (rest : List Event) (r : Reg), s.pending = .access (.read (r.offset + 4#8) 4) :: rest →
    step s = .next { s with pending := rest,
                            responses := .data32 ((readReg r s).extractLsb' 32 32) :: s.responses }) ∧
  ∀ s : State, readReg .cmd s = 0#64 ∧
    (∀ i : Nat, i < 64 → (readReg .cfgWidth s).getLsbD i = (decide (i < 7) && s.staged.width.getLsbD i)) ∧
    ((readReg .cfgCtrl s).getLsbD 0 = s.staged.refin ∧ (readReg .cfgCtrl s).getLsbD 1 = s.staged.refout ∧
      ∀ i : Nat, 2 ≤ i → (readReg .cfgCtrl s).getLsbD i = false) ∧
    ((readReg .status s).getLsbD 0 = s.status.ready ∧ (readReg .status s).getLsbD 1 = s.status.errCfg ∧
      (readReg .status s).getLsbD 2 = s.status.errCmd ∧ (readReg .status s).getLsbD 3 = s.status.errState ∧
      ∀ i : Nat, 4 ≤ i → (readReg .status s).getLsbD i = false) ∧
    readReg .cfgPoly s = s.staged.poly ∧ readReg .cfgInit s = s.staged.init ∧
    readReg .cfgXorout s = s.staged.xorout ∧ readReg .din s = s.din ∧ readReg .result s = s.result

/-- R53: byte k of the window above a register's offset is bits 8k+7 to 8k of the register, and the bytes of a legal
read are the bytes of the window from its offset up, the lowest first. -/
def Obligations.ReadsAreLittleEndian : Prop :=
  (∀ (s : State) (r : Reg) (k : Nat), k < 8 →
    windowByte s (r.offset + BitVec.ofNat 8 k) = (readReg r s).extractLsb' (8 * k) 8) ∧
  (∀ (s : State) (rest : List Event) (off : Byte), s.pending = .access (.read off 8) :: rest →
    off.toNat % 8 = 0 → off.toNat < 0x48 → ∃ t x, step s = .next t ∧ t.responses = .data64 x :: s.responses ∧
      ∀ k : Nat, k < 8 → x.extractLsb' (8 * k) 8 = windowByte s (off + BitVec.ofNat 8 k)) ∧
  ∀ (s : State) (rest : List Event) (off : Byte), s.pending = .access (.read off 4) :: rest →
    off.toNat % 4 = 0 → off.toNat < 0x48 → ∃ t x, step s = .next t ∧ t.responses = .data32 x :: s.responses ∧
      ∀ k : Nat, k < 4 → x.extractLsb' (8 * k) 8 = windowByte s (off + BitVec.ofNat 8 k)

/-- R55 for CFG_* and DIN: a legal write replaces the bits it names and no others (a 4-byte write one half), reserved
bits stay 0, every other register keeps its value, and ACT, TABLE and ACC are unchanged. -/
def Obligations.WritesReplaceTheBytesTheyName : Prop :=
  ∀ (s : State) (rest : List Event) (r : Reg) (up : Nat) (n : Nat) (v : Word), r ≠ .cmd → r ≠ .status → r ≠ .result →
    (n = 8 ∧ up = 0) ∨ (n = 4 ∧ (up = 0 ∨ up = 4)) →
    s.pending = .access (.write (r.offset + BitVec.ofNat 8 up) n v) :: rest →
    ∃ t, step s = .next t ∧
      (∀ i : Nat, i < 64 → (readReg r t).getLsbD i =
        if writableBits r ≤ i then false
        else if 8 * up ≤ i ∧ i < 8 * up + 8 * n then v.getLsbD (i - 8 * up) else (readReg r s).getLsbD i) ∧
      (∀ r' : Reg, r' ≠ r → readReg r' t = readReg r' s) ∧
      t.act = s.act ∧ t.table = s.table ∧ t.acc = s.acc ∧ t.pending = rest ∧ t.responses = .done :: s.responses

/-- R57: repeating a read returns the same answer, and repeating a write to CFG_* or DIN leaves the same state. -/
def Obligations.AccessesButCmdWritesAreIdempotent : Prop :=
  (∀ (s t u : State) (off : Byte) (n : Nat) (rest : List Event),
    s.pending = .access (.read off n) :: .access (.read off n) :: rest → step s = .next t → step t = .next u →
    ∃ r, t.responses = r :: s.responses ∧ u = { t with pending := rest, responses := r :: t.responses }) ∧
  ∀ (s t u : State) (off : Byte) (n : Nat) (v : Word) (rest : List Event), off.toNat < 0x30 →
    s.pending = .access (.write off n v) :: .access (.write off n v) :: rest → step s = .next t → step t = .next u →
    ∃ r, t.responses = r :: s.responses ∧ u = { t with pending := rest, responses := r :: t.responses }

/-- The block has an outcome for every event in every state: a step never stops (R198).  That a bus error and the other
errors stop no step is the model's reading of the spec (notes/assumptions/8.md), and that a state with nothing pending
takes an idle step is the model's choice (notes/assumptions/2.md). -/
def Obligations.EveryStepCompletes : Prop :=
  ∀ s : State, ∃ t, step s = .next t

/-- R9: the block has no autonomous step: where the host sends nothing, nothing changes.  That the model takes an idle step
there is its own form (notes/assumptions/2.md). -/
def Obligations.NothingChangesWithoutAnEvent : Prop :=
  ∀ s : State, s.pending = [] → step s = .next s

/-- R50, R22: the window is the 256 bytes from BASE, decoded by the offset from BASE; an access elsewhere does not reach the
block; and the nine registers take offsets 0x00 to 0x47, eight bytes each, at the offsets of the table of R22.  R7: BASE is aligned to 256.  That BASE is 256
times an opaque number, and an address a natural number, is the model's choice (notes/assumptions/5.md). -/
def Obligations.TheWindowIsDecodedByOffset : Prop :=
  Config.base % 256 = 0 ∧
  (∀ off : Byte, windowOffset (Config.base + off.toNat) = some off) ∧
  (∀ addr : Nat, addr < Config.base ∨ Config.base + 256 ≤ addr → windowOffset addr = none) ∧
  (regAt 0x00#8 = some .cfgWidth ∧ regAt 0x08#8 = some .cfgCtrl ∧ regAt 0x10#8 = some .cfgPoly ∧
    regAt 0x18#8 = some .cfgInit ∧ regAt 0x20#8 = some .cfgXorout ∧ regAt 0x28#8 = some .din ∧
    regAt 0x30#8 = some .cmd ∧ regAt 0x38#8 = some .status ∧ regAt 0x40#8 = some .result) ∧
  (Reg.cfgWidth.offset = 0x00#8 ∧ Reg.cfgCtrl.offset = 0x08#8 ∧ Reg.cfgPoly.offset = 0x10#8 ∧
    Reg.cfgInit.offset = 0x18#8 ∧ Reg.cfgXorout.offset = 0x20#8 ∧ Reg.din.offset = 0x28#8 ∧
    Reg.cmd.offset = 0x30#8 ∧ Reg.status.offset = 0x38#8 ∧ Reg.result.offset = 0x40#8) ∧
  (∀ off : Byte, off.toNat < 0x48 → ∃ r : Reg, regAt off = some r ∧ r.offset.toNat = 8 * (off.toNat / 8)) ∧
  ∀ off : Byte, 0x48 ≤ off.toNat → regAt off = none

/-! ### STATUS and the errors -/

/-- R30, the layout: STATUS reads READY in bit 0, ERR_CFG in bit 1, ERR_CMD in bit 2, ERR_STATE in bit 3 and 0 above. -/
def Obligations.StatusReadsItsFourFlags : Prop :=
  ∀ s : State, (readReg .status s).getLsbD 0 = s.status.ready ∧ (readReg .status s).getLsbD 1 = s.status.errCfg ∧
    (readReg .status s).getLsbD 2 = s.status.errCmd ∧ (readReg .status s).getLsbD 3 = s.status.errState ∧
    ∀ i : Nat, 4 ≤ i → (readReg .status s).getLsbD i = false

/-- R30, who sets and who clears: READY is set only by a CONFIGURE that passes validation and cleared only by one that
fails or by reset; each error bit is set only by its own error and cleared only by CLRERR or reset. -/
def Obligations.StatusBitsHaveOnlyTheirOwnCauses : Prop :=
  ∀ s t : State, step s = .next t →
    (s.status.ready = false → t.status.ready = true → nextCommand s = some .configure ∧ s.staged.valid = true) ∧
    (s.status.ready = true → t.status.ready = false →
      nextIsReset s = true ∨ (nextCommand s = some .configure ∧ s.staged.valid = false)) ∧
    (s.status.errCfg = false → t.status.errCfg = true → nextCommand s = some .configure ∧ s.staged.valid = false) ∧
    (s.status.errCmd = false → t.status.errCmd = true → nextCommandValue s ≠ none ∧ nextCommand s = none) ∧
    (s.status.errState = false → t.status.errState = true → s.status.ready = false ∧
      (nextCommand s = some .start ∨ (∃ n, nextCommand s = some (.feed n)) ∨ nextCommand s = some .final ∨
        ∃ b, nextCommand s = some (.rdtab b))) ∧
    (nextIsReset s = false → nextCommand s ≠ some .clrerr →
      (s.status.errCfg = true → t.status.errCfg = true) ∧ (s.status.errCmd = true → t.status.errCmd = true) ∧
      (s.status.errState = true → t.status.errState = true))

/-- R162: START, FEED, FINAL and RDTAB with READY = 0 set ERR_STATE and do nothing else; with READY = 1 no command sets it;
NOP, CONFIGURE, REFLECT and CLRERR never set it; READY = 0 after reset and after a CONFIGURE that fails. -/
def Obligations.StateErrorOnlyWithoutReady : Prop :=
  (∀ (i : Instr) (s : State), s.status.ready = false → i.wellFormed = true →
    i = .start ∨ (∃ n, i = .feed n) ∨ i = .final ∨ (∃ b, i = .rdtab b) →
    exec i s = .next { s with status := { s.status with errState := true } }) ∧
  (∀ (i : Instr) (s t : State), s.status.ready = true → exec i s = .next t → t.status.errState = true →
    s.status.errState = true) ∧
  (∀ (i : Instr) (s t : State), i = .nop ∨ i = .configure ∨ (∃ n, i = .reflect n) ∨ i = .clrerr →
    exec i s = .next t → t.status.errState = true → s.status.errState = true) ∧
  State.reset.status.ready = false ∧
  ∀ s t : State, exec .configure s = .next t → s.staged.valid = false → t.status.ready = false

/-- R161: CONFIGURE raises CfgError exactly when WIDTH is below 8 or above 64 or a bit of the polynomial, the initial value
or the final XOR is set at or above position WIDTH; it then sets ERR_CFG, clears READY and leaves the rest. -/
def Obligations.CfgErrorExactlyOnInvalidConfigurations : Prop :=
  ∀ s : State,
    let w := s.staged.width.toNat
    let bad := w < 8 ∨ 64 < w ∨ (∃ i, w ≤ i ∧ s.staged.poly.getLsbD i = true) ∨
      (∃ i, w ≤ i ∧ s.staged.init.getLsbD i = true) ∨ (∃ i, w ≤ i ∧ s.staged.xorout.getLsbD i = true)
    (bad → exec .configure s = .next { s with status := { s.status with ready := false, errCfg := true } }) ∧
    (¬bad → ∃ t, exec .configure s = .next t ∧ t.status = { s.status with ready := true })

/-- R165: one event sets at most one error bit; an access that is a bus error sets none; a malformed word sets only
ERR_CMD, whatever READY is; and a well-formed START with READY = 0 sets only ERR_STATE. -/
def Obligations.AtMostOneErrorAtATime : Prop :=
  (∀ (s t : State) (a : Access) (rest : List Event), s.pending = .access a :: rest → a.isBusError = true →
    step s = .next t → t.status = s.status) ∧
  (∀ s t : State, step s = .next t →
    ¬(s.status.errCfg = false ∧ t.status.errCfg = true ∧ s.status.errCmd = false ∧ t.status.errCmd = true) ∧
    ¬(s.status.errCfg = false ∧ t.status.errCfg = true ∧ s.status.errState = false ∧ t.status.errState = true) ∧
    ¬(s.status.errCmd = false ∧ t.status.errCmd = true ∧ s.status.errState = false ∧ t.status.errState = true)) ∧
  (∀ s t : State, step s = .next t → nextCommandValue s ≠ none → nextCommand s = none →
    t.status = { s.status with errCmd := true }) ∧
  ∀ s t : State, step s = .next t → nextCommand s = some .start → s.status.ready = false →
    t.status = { s.status with errState := true }

/-- R195, R162: READY stays 0, and RESULT keeps its value through every FINAL and RDTAB, until a CONFIGURE that passes
validation. -/
def Obligations.NoChecksumWithoutAValidConfiguration : Prop :=
  ∀ s t : State, step s = .next t → s.status.ready = false →
    ¬(nextCommand s = some .configure ∧ s.staged.valid = true) →
    t.status.ready = false ∧
      (t.result = s.result ∨ nextIsReset s = true ∨ ∃ n, nextCommand s = some (.reflect n))

/-! ### Reset -/

/-- R37, R180: reset, in whatever state it comes, leaves every register, field and flag 0; TABLE is unspecified, so
nothing is said of it. -/
def Obligations.ResetClearsTheBlock : Prop :=
  ∀ u : State, u = State.reset ∨ (∃ (s : State) (rest : List Event), s.pending = .reset :: rest ∧ step s = .next u) →
    (∀ r : Reg, readReg r u = 0#64) ∧ u.staged.width = 0#7 ∧ u.staged.refin = false ∧ u.staged.refout = false ∧
    u.status.ready = false ∧ u.status.errCfg = false ∧ u.status.errCmd = false ∧ u.status.errState = false ∧
    u.act.width = 0#7 ∧ u.act.poly = 0#64 ∧ u.act.init = 0#64 ∧ u.act.xorout = 0#64 ∧ u.act.refin = false ∧
    u.act.refout = false ∧ u.acc = 0#64

/-- R167, R181: a reset that arrives with an access leaves the block in the state a reset alone leaves (TABLE, which is
then unspecified, apart), whether the access was completed or dropped; which of the two the host sees is not said.  That
the answer is that of the access without the reset, or `dropped`, as a free value decides, is the model's choice
(notes/assumptions/4.md); the values a reset alone leaves are in `ResetClearsTheBlock`. -/
def Obligations.ResetWinsOverAnAccess : Prop :=
  ∀ (s : State) (a : Access) (rest : List Event), s.pending = .resetDuring a :: rest →
    ∃ t u, step s = .next t ∧ step { s with pending := .reset :: rest } = .next u ∧
      t.staged = u.staged ∧ t.din = u.din ∧ t.status = u.status ∧ t.result = u.result ∧ t.act = u.act ∧
      t.acc = u.acc ∧ t.pending = u.pending ∧
      (t.responses = completion a s :: s.responses ∨ t.responses = .dropped :: s.responses)

/-- R182: out of reset the block waits, START, FEED, FINAL and RDTAB raise StateError, NOP, REFLECT and CLRERR work, and so
does CONFIGURE once a valid configuration is staged; one issued before any CFG_WIDTH write fails, whatever else was
staged.  That waiting is an idle step, which answers the same state, is the model's choice (notes/assumptions/2.md). -/
def Obligations.OutOfReset : Prop :=
  step State.reset = .next State.reset ∧
  (∀ i : Instr, i.wellFormed = true → i = .start ∨ (∃ n, i = .feed n) ∨ i = .final ∨ (∃ b, i = .rdtab b) →
    ∃ t, exec i State.reset = .next t ∧ readReg .status t = 0x08#64) ∧
  exec .nop State.reset = .next State.reset ∧ exec .clrerr State.reset = .next State.reset ∧
  (∀ (n : Byte) (v : Word), 1 ≤ n.toNat → n.toNat ≤ 64 →
    exec (.reflect n) { State.reset with din := v } = .next { State.reset with din := v, result := reflect v n.toNat }) ∧
  (∀ c : Cfg, c.valid = true → ∃ t, exec .configure { State.reset with staged := c } = .next t ∧
    readReg .status t = 0x01#64 ∧ t.act = c) ∧
  ∀ c : Cfg, c.width = State.reset.staged.width →
    ∃ t, exec .configure { State.reset with staged := c } = .next t ∧ readReg .status t = 0x02#64

/-! ### Whole-machine claims -/

/-- The invariant of R36 holds at reset. -/
def Obligations.ResetMeetsTheReadyInvariant : Prop := ReadyInv State.reset

/-- R36: every step, from every state that meets the invariant, gives a state that meets it. -/
def Obligations.EveryStepKeepsTheReadyInvariant : Prop :=
  ∀ s t : State, ReadyInv s → step s = .next t → ReadyInv t

/-- R37 with R33, R34, R35: what READY = 0 hides (ACT, TABLE and ACC, the unspecified reset contents of TABLE among it)
never reaches the host: runs of any length from two states it cannot tell apart end in two such states, with the same
answers. -/
def Obligations.HiddenStateNeverReachesTheHost : Prop :=
  ∀ (k : Nat) (s t s' t' : State), SameToHost s t → Host.Core.run Sys2Proof.core k s = .next s' →
    Host.Core.run Sys2Proof.core k t = .next t' → SameToHost s' t'

/-- R191, R63: the staged configuration is seen by CONFIGURE and by no other command. -/
def Obligations.OnlyConfigureSeesTheStagedConfiguration : Prop :=
  ∀ (i : Instr) (s t : State) (c : Cfg), i ≠ .configure → exec i s = .next t →
    exec i { s with staged := c } = .next { t with staged := c }

/-! ### The arithmetic -/

/-- R120 bit by bit: the index is the data byte XOR the low byte of ACC (REFIN = 1) or its byte from bit width - 8 up
(REFIN = 0), and the entry there is XORed to ACC shifted by 8 right or left, within the width. -/
def Obligations.AccumulationStepBitByBit : Prop :=
  ∀ (c : Cfg) (t : Vector Word 256) (acc : Word) (d idx : Byte), 8 ≤ c.width.toNat → c.width.toNat ≤ 64 →
    let w := c.width.toNat
    idx.toNat = (if c.refin then acc.toNat % 256 else acc.toNat / 2 ^ (w - 8) % 256) ^^^ d.toNat →
    ∀ i : Nat, i < 64 → (crcStep c t acc d).getLsbD i = (decide (i < w) &&
      ((tableAt t idx).getLsbD i ^^
        (if c.refin then acc.getLsbD (i + 8) else decide (8 ≤ i) && acc.getLsbD (i - 8))))

/-- R102: a table entry is eight turns of its loop, done here on natural numbers modulo 2^width from the byte (reflected
when REFIN = 1) at the top of a register of the width, read in reverse when REFIN = 1; bits from the width on are 0. -/
def Obligations.TableEntryIsTheDivisionLoop : Prop :=
  ∀ (c : Cfg) (b : Byte), 8 ≤ c.width.toNat → c.width.toNat ≤ 64 →
    let w := c.width.toNat
    let x := if c.refin then (b.reverse).toNat else b.toNat
    let turn := fun r : Nat => if r.testBit (w - 1) then ((2 * r) ^^^ c.poly.toNat) % 2 ^ w else (2 * r) % 2 ^ w
    ∀ i : Nat, (tableEntry c b).getLsbD i =
      (decide (i < w) && (turn^[8] (x * 2 ^ (w - 8) % 2 ^ w)).testBit (if c.refin then w - 1 - i else i))

/-- R102 at its two anchors: with REFIN = 0 entry 0x01 is the polynomial itself, with REFIN = 1 entry 0x80 is the
reflected polynomial. -/
def Obligations.TableEntryAnchors : Prop :=
  ∀ c : Cfg, c.valid = true →
    (c.refin = false → tableEntry c 0x01#8 = c.poly) ∧
    (c.refin = true → tableEntry c 0x80#8 = reflect c.poly c.width.toNat)

/-- R103 (a), (b), (d) and the bound of R102: a table entry depends on width, polynomial and REFIN only, fits in the
width, is 0 at index 0, and is 0 everywhere for the zero polynomial (at the legal widths). -/
def Obligations.TableEntryBasics : Prop :=
  (∀ (c d : Cfg) (b : Byte), c.width = d.width → c.poly = d.poly → c.refin = d.refin →
    tableEntry c b = tableEntry d b) ∧
  (∀ (c : Cfg) (b : Byte), 8 ≤ c.width.toNat → c.width.toNat ≤ 64 → (tableEntry c b).toNat < 2 ^ c.width.toNat) ∧
  (∀ c : Cfg, tableEntry c 0#8 = 0#64) ∧
  ∀ (c : Cfg) (b : Byte), 8 ≤ c.width.toNat → c.width.toNat ≤ 64 → c.poly = 0#64 → tableEntry c b = 0#64

/-- R103 (c): the table is linear over XOR. -/
def Obligations.TableEntriesAreLinear : Prop :=
  ∀ (c : Cfg) (a b : Byte), tableEntry c (a ^^^ b) = tableEntry c a ^^^ tableEntry c b

/-- R103 (e), marked there as general knowledge (93_implementation_defined.md G1): with REFIN = 1 a table entry is the classic right-shifting entry of the
reflected polynomial. -/
def Obligations.ReflectedTableIsTheRightShiftingTable : Prop :=
  ∀ (c : Cfg) (b : Byte), c.valid = true → c.refin = true →
    tableEntry c b = rightShiftBits (reflect c.poly c.width.toNat) 8 (b.setWidth 64)

/-- R16, R59, R102, R120: one table-driven step is eight bits of polynomial division.  With REFIN = 0 the byte enters at
the top of the register, its bit 7 first; with REFIN = 1 the same holds of the reflected register and the reflected byte,
so bit 0 is first. -/
def Obligations.TableDrivenStepIsBitwiseDivision : Prop :=
  ∀ (c : Cfg) (acc : Word) (d : Byte), c.valid = true → acc.toNat < 2 ^ c.width.toNat →
    let w := c.width.toNat
    (c.refin = false → crcStep c (buildTable c) acc d =
      divideBits w c.poly 8 (acc ^^^ (d.setWidth 64 <<< (w - 8)))) ∧
    (c.refin = true → reflect (crcStep c (buildTable c) acc d) w =
      divideBits w c.poly 8 (reflect acc w ^^^ (reflect (d.setWidth 64) 8 <<< (w - 8))))

/-- R121 (a), (b), (d): a step fits in the width; at width 8 both directions look up ACC XOR the byte; with the zero
polynomial a step is a shift of ACC by 8. -/
def Obligations.AccumulationStepCorners : Prop :=
  (∀ (c : Cfg) (t : Vector Word 256) (acc : Word) (d : Byte),
    (crcStep c t acc d).toNat < 2 ^ c.width.toNat) ∧
  (∀ (c : Cfg) (acc : Word) (d : Byte), c.width.toNat = 8 → acc.toNat < 256 →
    crcStep c (buildTable c) acc d = tableEntry c (acc.setWidth 8 ^^^ d)) ∧
  ∀ (c : Cfg) (acc : Word) (d : Byte), 8 ≤ c.width.toNat → c.width.toNat ≤ 64 → c.poly = 0#64 →
    acc.toNat < 2 ^ c.width.toNat →
    crcStep c (buildTable c) acc d = if c.refin then acc >>> 8 else (acc <<< 8) &&& mask c.width.toNat

/-- R124: with REFOUT = 0 a final XOR of X gives what a conventional definition (no complement) gives with the
complement of X within the width. -/
def Obligations.FinalizationMapping : Prop :=
  ∀ (c : Cfg) (acc : Word), c.valid = true → acc.toNat < 2 ^ c.width.toNat → c.refout = false →
    finalize c acc = acc ^^^ (c.xorout ^^^ mask c.width.toNat)

/-- R176: ACC can be recovered from a FINAL result, because finalization is injective on values that fit in the width. -/
def Obligations.FinalizationIsInvertible : Prop :=
  ∀ (c : Cfg) (x y : Word), c.valid = true → x.toNat < 2 ^ c.width.toNat → y.toNat < 2 ^ c.width.toNat →
    finalize c x = finalize c y → x = y

/-- R142: reflecting twice gives the low n bits back. -/
def Obligations.ReflectionIsAnInvolution : Prop :=
  ∀ (v : Word) (n : Nat), 1 ≤ n → n ≤ 64 → reflect (reflect v n) n = v &&& mask n

/-- R141: byte j of an 8m-bit reflection is the 8-bit reflection of byte m - 1 - j. -/
def Obligations.ReflectionIsByteReflectionAndByteReversal : Prop :=
  ∀ (v : Word) (m j : Nat), 1 ≤ m → m ≤ 8 → j < m →
    ((reflect v (8 * m)).extractLsb' (8 * j) 8).setWidth 64 =
      reflect ((v.extractLsb' (8 * (m - 1 - j)) 8).setWidth 64) 8

/-- Feeding n bytes is feeding the first m of them and then the rest, moved down to lane 0 (R126, R128). -/
def Obligations.FeedSplitsAnywhere : Prop :=
  ∀ (s t u : State) (m n : Byte), m.toNat + n.toNat ≤ 8 → s.status.ready = true →
    exec (.feed m) s = .next t → exec (.feed n) { t with din := s.din >>> (8 * m.toNat) } = .next u →
    exec (.feed (m + n)) s = .next { u with din := s.din }

/-- R130: START then FINAL, with nothing fed, writes the finalization of the initial value. -/
def Obligations.EmptyInputChecksum : Prop :=
  ∀ s t : State, s.status.ready = true → exec .start s = .next t →
    exec .final t = .next { t with result := finalize s.act s.act.init }

/-- R128: with READY = 1, START, then for any split of a message into groups of 0 to 8 bytes a DIN write and a FEED for
each, then FINAL, run to completion with no error, and RESULT is the checksum of the whole message under the active
configuration, so it does not depend on the split. -/
def Obligations.CalculateLaw : Prop :=
  ∀ (s : State) (groups : List (Word × Byte)), ReadyInv s → s.status.ready = true →
    (∀ g ∈ groups, g.2.toNat ≤ 8) → s.pending = calculateAccesses groups →
    ∃ t, Host.Core.run Sys2Proof.core (2 * groups.length + 2) s = .next t ∧ t.pending = [] ∧
      t.result = calculate s.act (groups.flatMap groupBytes) ∧ t.status = s.status ∧ t.act = s.act ∧
      t.table = s.table ∧ t.staged = s.staged
end

