-- ==== Sys2Proof/Laws/Crc.lean ====
section
/-! SUPPORT. What the arithmetic does bit by bit: the mask, reflection, division, the table and one step. -/

namespace Sys2Proof.Machine

/-! ### The mask -/

@[simp] theorem getLsbD_mask (w i : Nat) : (mask w).getLsbD i = (decide (i < w) && decide (i < 64)) := by
  unfold mask
  split
  · rename_i h
    have e : (1#64 <<< w) - 1#64 = BitVec.ofNat 64 (2 ^ w - 1) := by
      apply BitVec.eq_of_toNat_eq
      have hp : 0 < 2 ^ w := Nat.two_pow_pos w
      have hlt : 2 ^ w < 2 ^ 64 := Nat.pow_lt_pow_right (by decide) h
      simp only [BitVec.toNat_sub, BitVec.toNat_shiftLeft, BitVec.toNat_ofNat, Nat.shiftLeft_eq]
      omega
    rw [e, BitVec.getLsbD_ofNat, Nat.testBit_two_pow_sub_one]
    by_cases h1 : i < 64 <;> by_cases h2 : i < w <;> simp [h1, h2]
  · rw [BitVec.getLsbD_allOnes, Bool.eq_iff_iff]
    simp only [Bool.and_eq_true, decide_eq_true_eq]
    omega

@[simp] theorem getElem_mask (w i : Nat) (hi : i < 64) : (mask w)[i] = decide (i < w) := by
  rw [← BitVec.getLsbD_eq_getElem, getLsbD_mask, decide_eq_true hi, Bool.and_true]

/-- A masked value fits in the width. -/
theorem and_mask_lt (x : Word) (w : Nat) : (x &&& mask w).toNat < 2 ^ w := by
  apply Nat.lt_pow_two_of_testBit
  intro i hi
  change (x &&& mask w).getLsbD i = false
  have : ¬ i < w := by omega
  simp [this]

/-- A value that fits in the width is kept by the mask. -/
theorem and_mask_of_lt {x : Word} {w : Nat} (hx : x.toNat < 2 ^ w) : x &&& mask w = x := by
  apply BitVec.eq_of_getLsbD_eq
  intro i hi
  by_cases h : i < w
  · simp [h, hi]
  · have hb : x.getLsbD i = false :=
      Nat.testBit_lt_two_pow (lt_of_lt_of_le hx (Nat.pow_le_pow_right (by decide) (by omega)))
    simp [h, hb]

/-- No bit is set from the width on in a value that fits in it. -/
theorem getLsbD_of_lt {x : Word} {w i : Nat} (hx : x.toNat < 2 ^ w) (hi : w ≤ i) : x.getLsbD i = false :=
  Nat.testBit_lt_two_pow (lt_of_lt_of_le hx (Nat.pow_le_pow_right (by decide) hi))

/-- A value with no bit set from the width on fits in it. -/
theorem lt_of_getLsbD {x : Word} {w : Nat} (h : ∀ i, w ≤ i → x.getLsbD i = false) : x.toNat < 2 ^ w :=
  Nat.lt_pow_two_of_testBit _ fun i hi => h i hi

/-- The test of R100: nothing set outside the mask. -/
theorem and_not_mask_eq_zero (x : Word) (w : Nat) :
    x &&& ~~~(mask w) = 0#64 ↔ ∀ i, w ≤ i → x.getLsbD i = false := by
  constructor
  · intro h i hi
    by_cases h64 : i < 64
    · have := congrArg (fun y => BitVec.getLsbD y i) h
      have hw : ¬ i < w := by omega
      simpa [h64, hw] using this
    · simp [BitVec.getLsbD_of_ge, Nat.le_of_not_lt h64]
  · intro h
    apply BitVec.eq_of_getLsbD_eq
    intro i hi
    by_cases hw : i < w
    · simp [hi, hw]
    · simp [h i (by omega)]

/-- The validity of R100, spelled out. -/
theorem validConfig_iff (w : Nat) (p q x : Word) :
    validConfig w p q x = true ↔ 8 ≤ w ∧ w ≤ 64 ∧ (∀ i, w ≤ i → p.getLsbD i = false) ∧
      (∀ i, w ≤ i → q.getLsbD i = false) ∧ ∀ i, w ≤ i → x.getLsbD i = false := by
  simp only [validConfig, Bool.and_eq_true, decide_eq_true_eq, beq_iff_eq, and_not_mask_eq_zero, and_assoc]

/-- The validity of a configuration, spelled out. -/
theorem valid_iff (c : Cfg) :
    c.valid = true ↔ 8 ≤ c.width.toNat ∧ c.width.toNat ≤ 64 ∧ (∀ i, c.width.toNat ≤ i → c.poly.getLsbD i = false) ∧
      (∀ i, c.width.toNat ≤ i → c.init.getLsbD i = false) ∧ ∀ i, c.width.toNat ≤ i → c.xorout.getLsbD i = false :=
  validConfig_iff ..

/-! ### Reflection -/

theorem getLsbD_reflectBits (v : Word) (n k i : Nat) (hk : k ≤ 64) :
    (reflectBits v n k).getLsbD i = (decide (i < k) && v.getLsbD (n - 1 - i)) := by
  induction k with
  | zero => simp [reflectBits]
  | succ k ih =>
    rw [reflectBits, BitVec.getLsbD_or, ih (by omega)]
    have one : (1#64 <<< k).getLsbD i = decide (i = k) := by
      rw [BitVec.getLsbD_shiftLeft, BitVec.getLsbD_one]
      by_cases h : i = k
      · subst h; simp; omega
      · rw [decide_eq_false h, Bool.and_eq_false_iff]
        by_cases h2 : i < k
        · left; simp [h2]
        · right; simp; omega
    by_cases hi : i = k
    · subst hi
      cases hb : v.getLsbD (n - 1 - i) <;> simp [one]
    · cases hb : v.getLsbD (n - 1 - k) <;> simp [one, hi] <;>
        (congr 1; rw [decide_eq_decide]; omega)

/-- R140, bit by bit. -/
theorem getLsbD_reflect (v : Word) (n i : Nat) (hn : n ≤ 64) :
    (reflect v n).getLsbD i = (decide (i < n) && v.getLsbD (n - 1 - i)) :=
  getLsbD_reflectBits v n n i hn

theorem reflect_lt (v : Word) {n : Nat} (hn : n ≤ 64) : (reflect v n).toNat < 2 ^ n :=
  lt_of_getLsbD fun i hi => by simp [getLsbD_reflect v n i hn, Nat.not_lt.mpr hi]

theorem getLsbD_one_shift (k i : Nat) : (1#64 <<< k).getLsbD i = (decide (i < 64) && decide (i = k)) := by
  rw [BitVec.getLsbD_shiftLeft, BitVec.getLsbD_one, Bool.eq_iff_iff]
  simp only [Bool.and_eq_true, Bool.not_eq_true', decide_eq_true_eq, decide_eq_false_iff_not]
  omega

/-- Reflection is linear over XOR. -/
theorem reflect_xor (u v : Word) (n : Nat) : reflect (u ^^^ v) n = reflect u n ^^^ reflect v n := by
  have lin : ∀ k, reflectBits (u ^^^ v) n k = reflectBits u n k ^^^ reflectBits v n k := by
    intro k
    induction k with
    | zero => simp [reflectBits]
    | succ k ih =>
      simp only [reflectBits, ih, BitVec.getLsbD_xor]
      apply BitVec.eq_of_getLsbD_eq
      intro i hi
      by_cases hk : i = k
      · subst hk
        have clear : ∀ x : Word, (reflectBits x n i)[i] = false := fun x => by
          rw [← BitVec.getLsbD_eq_getElem, getLsbD_reflectBits _ _ _ _ (by omega)]
          simp
        cases u.getLsbD (n - 1 - i) <;> cases v.getLsbD (n - 1 - i) <;> simp [hi, clear]
      · have clear : (1#64 <<< k).getLsbD i = false := by
          rw [getLsbD_one_shift]
          simp [hk]
        cases u.getLsbD (n - 1 - k) <;> cases v.getLsbD (n - 1 - k) <;>
          simp [clear, -BitVec.getLsbD_shiftLeft]
  exact lin n

@[simp] theorem reflect_zero (n : Nat) : reflect 0#64 n = 0#64 := by
  have h := reflect_xor 0#64 0#64 n
  simpa using h

/-! ### Division -/

theorem xor_and (a b m : Word) : (a ^^^ b) &&& m = (a &&& m) ^^^ (b &&& m) := by
  apply BitVec.eq_of_getLsbD_eq
  intro i _
  simp only [BitVec.getLsbD_xor, BitVec.getLsbD_and]
  cases a.getLsbD i <;> cases b.getLsbD i <;> simp

/-- One turn of the loop of R102 without the branch. -/
theorem divideBit_eq (w : Nat) (poly r : Word) :
    divideBit w poly r = ((r <<< 1) ^^^ (if r.getLsbD (w - 1) then poly else 0#64)) &&& mask w := by
  unfold divideBit
  split <;> simp

theorem divideBit_xor (w : Nat) (poly r q : Word) :
    divideBit w poly (r ^^^ q) = divideBit w poly r ^^^ divideBit w poly q := by
  simp only [divideBit_eq]
  rw [BitVec.shiftLeft_xor_distrib, BitVec.getLsbD_xor, ← xor_and]
  congr 1
  cases r.getLsbD (w - 1) <;> cases q.getLsbD (w - 1) <;> simp <;> grind

/-- Division is linear over XOR. -/
theorem divideBits_xor (w : Nat) (poly : Word) (k : Nat) (r q : Word) :
    divideBits w poly k (r ^^^ q) = divideBits w poly k r ^^^ divideBits w poly k q := by
  induction k generalizing r q with
  | zero => rfl
  | succ k ih => simp only [divideBits, divideBit_xor, ih]

@[simp] theorem divideBits_zero (w : Nat) (poly : Word) (k : Nat) : divideBits w poly k 0#64 = 0#64 := by
  have h := divideBits_xor w poly k 0#64 0#64
  simpa using h

theorem divideBit_lt (w : Nat) (poly r : Word) : (divideBit w poly r).toNat < 2 ^ w := by
  unfold divideBit
  split <;> exact and_mask_lt _ _

theorem divideBits_lt {w : Nat} (poly : Word) (k : Nat) {r : Word} (hr : r.toNat < 2 ^ w) :
    (divideBits w poly k r).toNat < 2 ^ w := by
  induction k generalizing r with
  | zero => exact hr
  | succ k ih => exact ih (divideBit_lt w poly r)

/-- `k` turns only shift a value whose top `k` bits are 0: no bit reaches the top of the register before it leaves. -/
theorem divideBits_shift (w : Nat) (poly : Word) (k : Nat) (x : Word) (hk : k ≤ w) (hx : x.toNat < 2 ^ (w - k)) :
    divideBits w poly k x = x <<< k := by
  induction k generalizing x with
  | zero => simp [divideBits]
  | succ k ih =>
    have hb : x.getLsbD (w - 1) = false := getLsbD_of_lt hx (by omega)
    have hs : (x <<< 1).toNat < 2 ^ (w - k) := by
      rw [BitVec.toNat_shiftLeft, Nat.shiftLeft_eq]
      refine lt_of_le_of_lt (Nat.mod_le _ _) ?_
      calc x.toNat * 2 ^ 1 < 2 ^ (w - (k + 1)) * 2 ^ 1 := Nat.mul_lt_mul_of_pos_right hx (by decide)
        _ = 2 ^ (w - k) := by rw [← pow_add]; congr 1; omega
    have hd : divideBit w poly x = x <<< 1 := by
      unfold divideBit
      rw [hb]
      exact and_mask_of_lt (lt_of_lt_of_le hs (Nat.pow_le_pow_right (by decide) (by omega)))
    rw [divideBits, hd, ih _ (Nat.le_of_succ_le hk) hs, Nat.add_comm k 1, BitVec.shiftLeft_add]

/-! ### The table and one step -/

/-- The table entry with REFIN = 0 (R102). -/
theorem tableEntry_plain {c : Cfg} (h : c.refin = false) (b : Byte) :
    tableEntry c b = divideBits c.width.toNat c.poly 8
      ((b.setWidth 64 <<< (c.width.toNat - 8)) &&& mask c.width.toNat) := by
  simp [tableEntry, h]

/-- The table entry with REFIN = 1 (R102). -/
theorem tableEntry_reflected {c : Cfg} (h : c.refin = true) (b : Byte) :
    tableEntry c b = reflect (divideBits c.width.toNat c.poly 8
      ((reflect (b.setWidth 64) 8 <<< (c.width.toNat - 8)) &&& mask c.width.toNat)) c.width.toNat := by
  simp [tableEntry, h]

/-- Every entry of a built table is the table entry of R102. -/
@[simp] theorem tableAt_buildTable (c : Cfg) (b : Byte) : tableAt (buildTable c) b = tableEntry c b := by
  simp [tableAt, buildTable]

/-- Two tables with the same entries are the same table. -/
theorem table_ext {t u : Vector Word 256} (h : ∀ b : Byte, tableAt t b = tableAt u b) : t = u := by
  apply Vector.ext
  intro i hi
  have := h (BitVec.ofNat 8 i)
  simpa [tableAt, Nat.mod_eq_of_lt hi] using this

theorem crcStep_lt (c : Cfg) (t : Vector Word 256) (acc : Word) (d : Byte) :
    (crcStep c t acc d).toNat < 2 ^ c.width.toNat := and_mask_lt _ _

end Sys2Proof.Machine
end

