-- ==== Sys2Proof/Laws/Decode.lean ====
section
/-! SUPPORT. The decoder on a zero-extended command word, and what it promises of the commands it accepts. -/

namespace Sys2Proof

/-- A command word decodes by its fields: its upper half is 0 (R72). -/
theorem decode_setWidth (w : CmdWord) :
    decode (w.setWidth 64) =
      if rsvField w ≠ 0#16 then .error .reservedBits else decodeFields (opcField w) (argField w) := by
  have hi : (w.setWidth 64).extractLsb' 32 32 = 0#32 := by
    apply BitVec.eq_of_getLsbD_eq; intro i h; simp
  have lo : (w.setWidth 64).extractLsb' 0 32 = w := by
    apply BitVec.eq_of_getLsbD_eq; intro i h; simp [h]; omega
  unfold decode
  simp only [hi, lo, ne_eq, not_true_eq_false, if_false]

/-- The decoder accepts only well-formed commands (R72: `arg_legal` is checked before anything is executed). -/
theorem wellFormed_of_decode {v : Word} {i : Instr} (h : decode v = .ok i) : i.wellFormed = true := by
  unfold decode at h
  split at h
  · cases h
  · simp only at h
    split at h
    · cases h
    · unfold decodeFields at h
      split at h <;> (try simp only [withoutArg, withArg] at h) <;> (try split at h) <;> cases h <;>
        first | rfl | assumption

end Sys2Proof
end

