-- ==== Sys2Proof/Laws/Flags.lean ====
section
/-! SUPPORT. STATUS and CFG_CTRL bit by bit, and CFG_CTRL after a write. -/

namespace Sys2Proof.Machine

/-- STATUS bit by bit (R30): this is the equality a read of STATUS is reasoned about with. -/
theorem getLsbD_statusWord (f : Status) (i : Nat) :
    f.toWord.getLsbD i =
      match i with
      | 0 => f.ready
      | 1 => f.errCfg
      | 2 => f.errCmd
      | 3 => f.errState
      | _ => false := by
  obtain ⟨a, b, c, d⟩ := f
  rcases i with _ | _ | _ | _ | i
  · cases a <;> cases b <;> cases c <;> cases d <;> rfl
  · cases a <;> cases b <;> cases c <;> cases d <;> rfl
  · cases a <;> cases b <;> cases c <;> cases d <;> rfl
  · cases a <;> cases b <;> cases c <;> cases d <;> rfl
  · by_cases h : i + 4 < 64
    · have all : ∀ j : Nat, j < 60 → ∀ a b c d : Bool,
          (Status.toWord ⟨a, b, c, d⟩).getLsbD (j + 4) = false := by decide +kernel
      exact all i (by omega) a b c d
    · exact BitVec.getLsbD_of_ge _ _ (by omega)

/-- CFG_CTRL bit by bit (R24). -/
theorem getLsbD_ctrlWord (c : Cfg) (i : Nat) :
    c.ctrlWord.getLsbD i =
      match i with
      | 0 => c.refin
      | 1 => c.refout
      | _ => false := by
  have all : ∀ j : Nat, j < 64 → ∀ a b : Bool,
      (0#62 ++ BitVec.ofBool b ++ BitVec.ofBool a : BitVec (62 + 1 + 1)).getLsbD j =
        match j with
        | 0 => a
        | 1 => b
        | _ => false := by decide +kernel
  by_cases h : i < 64
  · exact all i h c.refin c.refout
  · rw [BitVec.getLsbD_of_ge _ _ (by omega)]
    rcases i with _ | _ | i
    · omega
    · omega
    · rfl

@[simp] theorem withCtrl_refin (c : Cfg) (v : Word) : (c.withCtrl v).refin = v.getLsbD 0 := rfl
@[simp] theorem withCtrl_refout (c : Cfg) (v : Word) : (c.withCtrl v).refout = v.getLsbD 1 := rfl

end Sys2Proof.Machine
end

