-- ==== Sys2Proof/Laws/State.lean ====
section
/-! SUPPORT. One lemma per field of State for each named update, so that no proof unfolds a record update. -/

namespace Sys2Proof.Machine

variable (k : ErrorKind) (r : Response) (s : State)

@[simp] theorem raise_staged : (raise k s).staged = s.staged := rfl
@[simp] theorem raise_din : (raise k s).din = s.din := rfl
@[simp] theorem raise_status : (raise k s).status = s.status.raised k := rfl
@[simp] theorem raise_result : (raise k s).result = s.result := rfl
@[simp] theorem raise_act : (raise k s).act = s.act := rfl
@[simp] theorem raise_table : (raise k s).table = s.table := rfl
@[simp] theorem raise_acc : (raise k s).acc = s.acc := rfl
@[simp] theorem raise_pending : (raise k s).pending = s.pending := rfl
@[simp] theorem raise_responses : (raise k s).responses = s.responses := rfl
@[simp] theorem raise_draws : (raise k s).draws = s.draws := rfl

@[simp] theorem respond_staged : (respond r s).staged = s.staged := rfl
@[simp] theorem respond_din : (respond r s).din = s.din := rfl
@[simp] theorem respond_status : (respond r s).status = s.status := rfl
@[simp] theorem respond_result : (respond r s).result = s.result := rfl
@[simp] theorem respond_act : (respond r s).act = s.act := rfl
@[simp] theorem respond_table : (respond r s).table = s.table := rfl
@[simp] theorem respond_acc : (respond r s).acc = s.acc := rfl
@[simp] theorem respond_pending : (respond r s).pending = s.pending := rfl
@[simp] theorem respond_responses : (respond r s).responses = r :: s.responses := rfl
@[simp] theorem respond_draws : (respond r s).draws = s.draws := rfl

@[simp] theorem latch_staged : (latchConfiguration s).staged = s.staged := rfl
@[simp] theorem latch_din : (latchConfiguration s).din = s.din := rfl
@[simp] theorem latch_status : (latchConfiguration s).status = s.status.configured := rfl
@[simp] theorem latch_result : (latchConfiguration s).result = s.result := rfl
@[simp] theorem latch_act : (latchConfiguration s).act = s.staged := rfl
@[simp] theorem latch_table : (latchConfiguration s).table = buildTable s.staged := rfl
@[simp] theorem latch_acc : (latchConfiguration s).acc = s.staged.init := rfl
@[simp] theorem latch_pending : (latchConfiguration s).pending = s.pending := rfl
@[simp] theorem latch_responses : (latchConfiguration s).responses = s.responses := rfl
@[simp] theorem latch_draws : (latchConfiguration s).draws = s.draws := rfl

@[simp] theorem applyReset_staged : (applyReset s).staged = Cfg.zero := rfl
@[simp] theorem applyReset_din : (applyReset s).din = 0#64 := rfl
@[simp] theorem applyReset_status : (applyReset s).status = Status.zero := rfl
@[simp] theorem applyReset_result : (applyReset s).result = 0#64 := rfl
@[simp] theorem applyReset_act : (applyReset s).act = Cfg.zero := rfl
@[simp] theorem applyReset_table : (applyReset s).table = resetTable := rfl
@[simp] theorem applyReset_acc : (applyReset s).acc = 0#64 := rfl
@[simp] theorem applyReset_pending : (applyReset s).pending = s.pending := rfl
@[simp] theorem applyReset_responses : (applyReset s).responses = s.responses := rfl
@[simp] theorem applyReset_draws : (applyReset s).draws = s.draws := rfl

variable (f : Status)

@[simp] theorem raised_cfg : f.raised .cfg = { f with ready := false, errCfg := true } := rfl
@[simp] theorem raised_cmd : f.raised .cmd = { f with errCmd := true } := rfl
@[simp] theorem raised_state : f.raised .state = { f with errState := true } := rfl
@[simp] theorem configured_ready : f.configured.ready = true := rfl
@[simp] theorem configured_errCfg : f.configured.errCfg = f.errCfg := rfl
@[simp] theorem configured_errCmd : f.configured.errCmd = f.errCmd := rfl
@[simp] theorem configured_errState : f.configured.errState = f.errState := rfl
@[simp] theorem cleared_ready : f.cleared.ready = f.ready := rfl
@[simp] theorem cleared_errCfg : f.cleared.errCfg = false := rfl
@[simp] theorem cleared_errCmd : f.cleared.errCmd = false := rfl
@[simp] theorem cleared_errState : f.cleared.errState = false := rfl

/-- A store to a register of the window touches the staged configuration and DIN alone. -/
theorem writeReg_frame (g : Reg) (v : Word) :
    (writeReg g v s).status = s.status ∧ (writeReg g v s).result = s.result ∧ (writeReg g v s).act = s.act ∧
    (writeReg g v s).table = s.table ∧ (writeReg g v s).acc = s.acc ∧ (writeReg g v s).pending = s.pending ∧
    (writeReg g v s).responses = s.responses ∧ (writeReg g v s).draws = s.draws := by
  cases g <;> exact ⟨rfl, rfl, rfl, rfl, rfl, rfl, rfl, rfl⟩

end Sys2Proof.Machine
end

