-- ==== Sys2Proof/Laws/Ops.lean ====
section
/-! SUPPORT. One lemma for each shared operation that says everything it can do, and one per command. -/

namespace Sys2Proof.Machine

/-! ### The READY gate and the commands -/

theorem requireReady_of_ready {s : State} (h : s.status.ready = true) (b : State) : requireReady s b = b := by
  simp [requireReady, h]

theorem requireReady_of_not_ready {s : State} (h : s.status.ready = false) (b : State) :
    requireReady s b = raise .state s := by
  simp [requireReady, h]

/-- The gate either lets the command through, with READY = 1, or raises StateError, with READY = 0. -/
theorem requireReady_cases (s b : State) :
    (s.status.ready = true ∧ requireReady s b = b) ∨
      (s.status.ready = false ∧ requireReady s b = raise .state s) := by
  cases h : s.status.ready
  · exact .inr ⟨rfl, requireReady_of_not_ready h b⟩
  · exact .inl ⟨rfl, requireReady_of_ready h b⟩

@[simp] theorem exec_nop (s : State) : exec .nop s = .next s := rfl

@[simp] theorem exec_clrerr (s : State) : exec .clrerr s = .next { s with status := s.status.cleared } := rfl

theorem exec_configure_valid {s : State} (h : s.staged.valid = true) :
    exec .configure s = .next (latchConfiguration s) := by
  simp [exec, execConfigure, h]

theorem exec_configure_invalid {s : State} (h : s.staged.valid = false) :
    exec .configure s = .next (raise .cfg s) := by
  simp [exec, execConfigure, h]

@[simp] theorem exec_start (s : State) : exec .start s = .next (requireReady s { s with acc := s.act.init }) := rfl

theorem exec_feed_legal {n : Byte} (h : n.toNat ≤ 8) (s : State) :
    exec (.feed n) s =
      .next (requireReady s { s with acc := feedLanes s.act s.table s.din n.toNat s.acc }) := by
  simp [exec, execFeed, argNat, Config.feedMax, h]

theorem exec_feed_illegal {n : Byte} (h : 8 < n.toNat) (s : State) : exec (.feed n) s = .next (raise .cmd s) := by
  simp [exec, execFeed, argNat, Config.feedMax, Nat.not_le.mpr h]

@[simp] theorem exec_final (s : State) :
    exec .final s = .next (requireReady s { s with result := finalize s.act s.acc }) := rfl

theorem exec_reflect_legal {n : Byte} (h1 : 1 ≤ n.toNat) (h2 : n.toNat ≤ 64) (s : State) :
    exec (.reflect n) s = .next { s with result := reflect s.din n.toNat } := by
  simp [exec, execReflect, argNat, Config.reflectMax, h1, h2]

theorem exec_reflect_illegal {n : Byte} (h : n.toNat = 0 ∨ 64 < n.toNat) (s : State) :
    exec (.reflect n) s = .next (raise .cmd s) := by
  have hn : ¬(1 ≤ argNat n ∧ argNat n ≤ Config.reflectMax) := by simp only [argNat, Config.reflectMax]; omega
  simp only [exec, execReflect, if_neg hn]

@[simp] theorem exec_rdtab (b : Byte) (s : State) :
    exec (.rdtab b) s = .next (requireReady s { s with result := tableAt s.table b }) := rfl

/-- Everything a command can do: how the next state of `exec` arises, command by command. -/
theorem exec_cases {i : Instr} {s t : State} (h : exec i s = .next t) :
    (i = .nop ∧ t = s) ∨ (i = .clrerr ∧ t = { s with status := s.status.cleared }) ∨
    (i = .configure ∧ s.staged.valid = true ∧ t = latchConfiguration s) ∨
    (i = .configure ∧ s.staged.valid = false ∧ t = raise .cfg s) ∨
    (s.status.ready = true ∧
      ((i = .start ∧ t = { s with acc := s.act.init }) ∨
       (∃ n, i = .feed n ∧ n.toNat ≤ 8 ∧ t = { s with acc := feedLanes s.act s.table s.din n.toNat s.acc }) ∨
       (i = .final ∧ t = { s with result := finalize s.act s.acc }) ∨
       ∃ b, i = .rdtab b ∧ t = { s with result := tableAt s.table b })) ∨
    (s.status.ready = false ∧ t = raise .state s ∧
      (i = .start ∨ (∃ n, i = .feed n ∧ n.toNat ≤ 8) ∨ i = .final ∨ ∃ b, i = .rdtab b)) ∨
    (∃ n, i = .reflect n ∧ 1 ≤ n.toNat ∧ n.toNat ≤ 64 ∧ t = { s with result := reflect s.din n.toNat }) ∨
    (i.wellFormed = false ∧ t = raise .cmd s ∧ ((∃ n, i = .feed n) ∨ ∃ n, i = .reflect n)) := by
  cases i with
  | nop => simp at h; simp [h]
  | clrerr => simp at h; simp [h]
  | configure =>
    cases hv : s.staged.valid
    · rw [exec_configure_invalid hv] at h; cases h; simp
    · rw [exec_configure_valid hv] at h; cases h; simp
  | start =>
    rw [exec_start] at h; cases h
    rcases requireReady_cases s { s with acc := s.act.init } with ⟨hr, e⟩ | ⟨hr, e⟩ <;> simp [hr, e]
  | final =>
    rw [exec_final] at h; cases h
    rcases requireReady_cases s { s with result := finalize s.act s.acc } with ⟨hr, e⟩ | ⟨hr, e⟩ <;> simp [hr, e]
  | rdtab b =>
    rw [exec_rdtab] at h; cases h
    rcases requireReady_cases s { s with result := tableAt s.table b } with ⟨hr, e⟩ | ⟨hr, e⟩ <;> simp [hr, e]
  | feed n =>
    by_cases hn : n.toNat ≤ 8
    · rw [exec_feed_legal hn] at h; cases h
      rcases requireReady_cases s { s with acc := feedLanes s.act s.table s.din n.toNat s.acc } with
        ⟨hr, e⟩ | ⟨hr, e⟩ <;> simp [hr, e, hn]
    · rw [exec_feed_illegal (by omega)] at h; cases h
      simp [Instr.wellFormed, Config.feedMax, hn]
  | reflect n =>
    by_cases hn : 1 ≤ n.toNat ∧ n.toNat ≤ 64
    · rw [exec_reflect_legal hn.1 hn.2] at h; cases h; simp [hn]
    · rw [exec_reflect_illegal (by omega)] at h; cases h
      have hw : (Instr.reflect n).wellFormed = false := by
        rw [Bool.eq_false_iff]
        simpa [Instr.wellFormed, Config.reflectMax] using hn
      simp [hw]

/-- A command always gives a next state. -/
theorem exec_next (i : Instr) (s : State) : ∃ t, exec i s = .next t := by
  cases i <;> exact ⟨_, rfl⟩

/-- FEED folds the step over the lanes of DIN, lane 0 first (R126). -/
theorem feedLanes_eq_foldl (c : Cfg) (t : Vector Word 256) (din : Word) (n : Nat) (acc : Word) :
    feedLanes c t din n acc = ((List.range n).map (dinLane din)).foldl (crcStep c t) acc := by
  induction n with
  | zero => rfl
  | succ n ih => rw [List.range_succ, List.map_append, List.foldl_append, ← ih]; rfl

/-! ### The register window -/

/-- The register at a register's own offset, and at the upper half of it. -/
@[simp] theorem regAt_offset (r : Reg) : regAt r.offset = some r := by cases r <;> rfl

@[simp] theorem regAt_offset_upper (r : Reg) : regAt (r.offset + 4#8) = some r := by cases r <;> rfl

/-- What the decoding of an offset says: the register exists exactly below 0x48. -/
theorem regAt_eq_none_iff (off : Byte) : regAt off = none ↔ 0x48 ≤ off.toNat := by
  revert off; decide +kernel

/-- The offsets of CMD are 0x30 to 0x37. -/
theorem regAt_eq_cmd_iff (off : Byte) : regAt off = some .cmd ↔ 0x30 ≤ off.toNat ∧ off.toNat ≤ 0x37 := by
  revert off; decide +kernel

/-- The offsets of STATUS and RESULT are 0x38 to 0x47. -/
theorem regAt_readOnly_iff (off : Byte) :
    (regAt off = some .status ∨ regAt off = some .result) ↔ 0x38 ≤ off.toNat ∧ off.toNat ≤ 0x47 := by
  revert off; decide +kernel

/-- A 4-byte write bit by bit: the named half comes from the written value, the other is kept. -/
theorem getLsbD_withHalfAt (off : Byte) (h : BitVec 32) (x : Word) (i : Nat) (hi : i < 64) :
    (withHalfAt off h x).getLsbD i =
      if upperHalfAt off = decide (32 ≤ i) then h.getLsbD (i % 32) else x.getLsbD i := by
  have app : ∀ a b : BitVec 32, ((a ++ b : BitVec (32 + 32)) : Word).getLsbD i =
      if i < 32 then b.getLsbD i else a.getLsbD (i - 32) := fun a b => BitVec.getLsbD_append
  unfold withHalfAt
  by_cases h1 : i < 32
  · have e : i % 32 = i := Nat.mod_eq_of_lt h1
    have n : ¬ 32 ≤ i := by omega
    cases upperHalfAt off <;> simp [app, h1, n, e]
  · have e : i % 32 = i - 32 := by omega
    have n : 32 ≤ i := by omega
    have k : i - 32 < 32 := by omega
    have a : 32 + (i - 32) = i := by omega
    cases upperHalfAt off <;> simp [app, h1, n, e, k, a]

/-- The data of a read is no bus error. -/
theorem readData_ne_busError (off : Byte) (n : Nat) (s : State) (o : Byte) : readData off n s ≠ .busError o := by
  unfold readData
  split <;> exact Response.noConfusion

/-- The answer of an access: a bus error, the data of a legal read, or the completion of a legal write. -/
theorem completion_cases (a : Access) (s : State) :
    (a.isBusError = true ∧ completion a s = .busError a.off) ∨
    (a.isBusError = false ∧ ∃ off n, a = .read off n ∧ completion a s = readData off n s) ∨
    (a.isBusError = false ∧ ∃ off n v, a = .write off n v ∧ completion a s = .done) := by
  cases hb : a.isBusError
  · cases a with
    | read off n => exact .inr (.inl ⟨rfl, off, n, rfl, by simp [completion, hb]⟩)
    | write off n v => exact .inr (.inr ⟨rfl, off, n, v, rfl, by simp [completion, hb]⟩)
  · exact .inl ⟨rfl, by simp [completion, hb]⟩

/-- A legal write to CMD is at 0x30 (R56 (e)). -/
theorem legal_command_write {off : Byte} {n : Nat} {v : Word} (h : (Access.write off n v).isBusError = false)
    (hr : regAt off = some .cmd) : off = 0x30#8 ∧ (n = 4 ∨ n = 8) := by
  rw [regAt_eq_cmd_iff] at hr
  simp only [Access.isBusError, badAccess, badWrite, Config.firstReserved, Bool.or_eq_false_iff, Bool.not_eq_false',
    Bool.or_eq_true, beq_iff_eq, bne_eq_false_iff_eq, Bool.and_eq_false_iff, decide_eq_false_iff_not,
    beq_eq_false_iff_ne] at h
  obtain ⟨⟨⟨hn, ha⟩, -⟩, -, he⟩ := h
  refine ⟨BitVec.eq_of_toNat_eq ?_, hn⟩
  rcases hn with rfl | rfl <;> simp <;> omega

/-- A legal write names a register that can be written. -/
theorem legal_write_register {off : Byte} {n : Nat} {v : Word} (h : (Access.write off n v).isBusError = false) :
    ∃ r, regAt off = some r ∧ r ≠ .status ∧ r ≠ .result := by
  simp only [Access.isBusError, badAccess, badWrite, Config.firstReserved, Bool.or_eq_false_iff,
    Bool.and_eq_false_iff, decide_eq_false_iff_not] at h
  obtain ⟨⟨-, hc⟩, hd, -⟩ := h
  cases hr : regAt off with
  | none => exact absurd ((regAt_eq_none_iff off).mp hr) hc
  | some r =>
    refine ⟨r, rfl, ?_, ?_⟩ <;> rintro rfl
    · have := (regAt_readOnly_iff off).mp (.inl hr); omega
    · have := (regAt_readOnly_iff off).mp (.inr hr); omega

end Sys2Proof.Machine
end

