-- ==== Sys2Proof/Laws/PerInstr.lean ====
section
/-! SUPPORT. The family `EncodedWord`: the word of every command is the word of its row of spec/opcode_table.json, read
through the row's own mask and match. -/

namespace Sys2Proof.Laws.EncodedWord

/-- The "mask" of the row. -/
def mask : Instr → CmdWord
  | .nop => 0xFFFFFFFF#32
  | .configure => 0xFFFFFFFF#32
  | .start => 0xFFFFFFFF#32
  | .feed _ => 0xFFFF00FF#32
  | .final => 0xFFFFFFFF#32
  | .reflect _ => 0xFFFF00FF#32
  | .rdtab _ => 0xFFFF00FF#32
  | .clrerr => 0xFFFFFFFF#32

/-- The "match" of the row. -/
def pattern : Instr → CmdWord
  | .nop => 0x00000000#32
  | .configure => 0x00000001#32
  | .start => 0x00000002#32
  | .feed _ => 0x00000003#32
  | .final => 0x00000004#32
  | .reflect _ => 0x00000005#32
  | .rdtab _ => 0x00000006#32
  | .clrerr => 0x00000007#32

/-- The word has the row's fixed bits. -/
def Statement (i : Instr) : Prop := encode i &&& mask i = pattern i

theorem nop : Statement .nop := by unfold Statement; decide
theorem configure : Statement .configure := by unfold Statement; decide
theorem start : Statement .start := by unfold Statement; decide
theorem feed (n : Byte) : Statement (.feed n) := by
  revert n; unfold Statement; decide +kernel
theorem final : Statement .final := by unfold Statement; decide
theorem reflect (n : Byte) : Statement (.reflect n) := by
  revert n; unfold Statement; decide +kernel
theorem rdtab (b : Byte) : Statement (.rdtab b) := by
  revert b; unfold Statement; decide +kernel
theorem clrerr : Statement .clrerr := by unfold Statement; decide

end Sys2Proof.Laws.EncodedWord
end

