-- ==== Sys2Proof/Laws/Step.lean ====
section
/-! SUPPORT. What one step can do, said once. -/

namespace Sys2Proof.Machine

/-- A CMD write of a value that decodes runs the command. -/
theorem issueCommand_ok {v : Word} {i : Instr} (h : decode v = .ok i) (s : State) : issueCommand v s = exec i s := by
  simp [issueCommand, h]

/-- A CMD write of a value that does not decode raises CmdError. -/
theorem issueCommand_error {v : Word} {e : Reject} (h : decode v = .error e) (s : State) :
    issueCommand v s = .next (raise .cmd s) := by
  simp [issueCommand, h]

theorem step_nil {s : State} (h : s.pending = []) : step s = .next s := by
  simp [step, acceptNext, h]

theorem step_cons {s : State} {e : Event} {rest : List Event} (h : s.pending = e :: rest) :
    step s = performEvent e { s with pending := rest } := by
  simp [step, acceptNext, h]

/-- Everything a step can do.  Where the next event is an access, `u` is the state that has accepted and answered it. -/
theorem step_cases {s t : State} (h : step s = .next t) :
    (s.pending = [] ∧ t = s) ∨
    (∃ rest, s.pending = .reset :: rest ∧ t = applyReset { s with pending := rest }) ∨
    (∃ a rest, s.pending = .resetDuring a :: rest ∧ t = applyResetDuring a { s with pending := rest }) ∨
    (∃ a rest, s.pending = .access a :: rest ∧
      let u := respond (completion a { s with pending := rest }) { s with pending := rest }
      ((a.isBusError = true ∨ ∃ off n, a = .read off n) ∧ t = u) ∨
      (∃ off n v, a = .write off n v ∧ a.isBusError = false ∧
        ((∃ r, regAt off = some r ∧ r ≠ .cmd ∧ r ≠ .status ∧ r ≠ .result ∧
            t = writeReg r (mergeWrite off n v (readReg r u)) u) ∨
         (off = 0x30#8 ∧ (n = 4 ∨ n = 8) ∧
          ((∃ i, decode (commandValue n v) = .ok i ∧ exec i u = .next t) ∨
           (∃ e, decode (commandValue n v) = .error e ∧ t = raise .cmd u)))))) := by
  cases hp : s.pending with
  | nil => rw [step_nil hp] at h; cases h; simp
  | cons e rest =>
    rw [step_cons hp] at h
    cases e with
    | reset => cases h; simp
    | resetDuring a => cases h; simp
    | access a =>
      refine .inr (.inr (.inr ⟨a, rest, rfl, ?_⟩))
      simp only [performEvent, performAccess] at h
      cases hb : a.isBusError
      · cases a with
        | read off n => rw [hb] at h; cases h; simp
        | write off n v =>
          simp only [hb] at h
          refine .inr ⟨off, n, v, rfl, rfl, ?_⟩
          obtain ⟨r, hr, hs, hq⟩ := legal_write_register hb
          by_cases hc : r = .cmd
          · subst hc
            obtain ⟨h0, hn⟩ := legal_command_write hb hr
            refine .inr ⟨h0, hn, ?_⟩
            simp only [performWrite, hr] at h
            cases hd : decode (commandValue n v) with
            | ok i => rw [issueCommand_ok hd] at h; exact .inl ⟨i, rfl, h⟩
            | error e => rw [issueCommand_error hd] at h; cases h; exact .inr ⟨e, rfl, rfl⟩
          · refine .inl ⟨r, hr, hc, hs, hq, ?_⟩
            cases r <;> simp_all [performWrite]
      · simp only [hb, if_true] at h
        cases h; simp

/-- What a step does to STATUS and RESULT, by what the next event is: a reset, an event that issues no command, a CMD
write of a malformed value, or a CMD write of a command, which then runs on a state with the same registers. -/
theorem step_status {s t : State} (h : step s = .next t) :
    (nextIsReset s = true ∧ t.status = Status.zero ∧ t.result = 0#64 ∧ nextCommandValue s = none) ∨
    (nextIsReset s = false ∧ nextCommandValue s = none ∧ t.status = s.status ∧ t.result = s.result) ∨
    (nextIsReset s = false ∧ ∃ v, nextCommandValue s = some v ∧ nextCommand s = none ∧
      t.status = s.status.raised .cmd ∧ t.result = s.result) ∨
    (nextIsReset s = false ∧ ∃ i u, nextCommandValue s ≠ none ∧ nextCommand s = some i ∧ i.wellFormed = true ∧
      u.status = s.status ∧ u.result = s.result ∧ u.staged = s.staged ∧ exec i u = .next t) := by
  rcases step_cases h with ⟨hp, rfl⟩ | ⟨rest, hp, rfl⟩ | ⟨a, rest, hp, rfl⟩ | ⟨a, rest, hp, h1⟩
  · right; left; simp [nextIsReset, nextCommandValue, hp]
  · left; simp [nextIsReset, nextCommandValue, hp]
  · left; simp [nextIsReset, nextCommandValue, hp, applyResetDuring]
  · right
    have hn : nextIsReset s = false := by simp [nextIsReset, hp]
    rcases h1 with ⟨hb, rfl⟩ | ⟨off, n, v, rfl, hb, ⟨r, hr, hc, hs, hq, rfl⟩ | ⟨h0, hn4, hx⟩⟩
    · left
      refine ⟨hn, ?_, rfl, rfl⟩
      cases a with
      | read => simp [nextCommandValue, hp]
      | write off n v =>
        simp only [nextCommandValue, hp]
        rw [if_neg]
        rintro ⟨rfl, rfl | rfl⟩ <;> simp [Access.isBusError, badAccess, badWrite] at hb
    · left
      refine ⟨hn, ?_, (writeReg_frame ..).1, (writeReg_frame ..).2.1⟩
      simp only [nextCommandValue, hp]
      rw [if_neg]
      rintro ⟨rfl, -⟩
      exact hc (Option.some.inj (hr.symm.trans (by decide)))
    · have hv : nextCommandValue s = some (commandValue n v) := by
        simp only [nextCommandValue, hp]
        rw [if_pos ⟨h0, hn4⟩]
      rcases hx with ⟨i, hd, he⟩ | ⟨e, hd, rfl⟩
      · exact .inr (.inr ⟨hn, i, respond (completion (.write off n v) { s with pending := rest }) { s with pending := rest },
          by simp [hv], by simp [nextCommand, hv, hd], wellFormed_of_decode hd, rfl, rfl, rfl, he⟩)
      · exact .inr (.inl ⟨hn, _, hv, by simp [nextCommand, hv, hd], rfl, rfl⟩)

end Sys2Proof.Machine
end

