-- ==== Sys2Proof/Tests/Slice0.lean ====
section
/-! SUPPORT. Tests of the model on the vectors of spec/95_test_vectors.md (each names its vector), and for every statement
with hypotheses a witness that meets them. -/

namespace Sys2Proof.Tests

open Sys2Proof Sys2Proof.Machine

/-! ### Helpers -/

/-- A field of the next state, none where a command or a step stops. -/
def field {α : Type} (f : State → α) : Result → Option α
  | .next t => some (f t)
  | .fault _ => none
  | .refused _ => none

/-- Whether a command or a step answers a next state. -/
def answers (r : Result) : Bool := (field (fun _ => ()) r).isSome

/-- STATUS as the host reads it. -/
def statusWord (s : State) : Word := readReg .status s

/-- The state after a successful CONFIGURE of `c` out of reset. -/
def ready (c : Cfg) : State :=
  { State.reset with staged := c, act := c, table := buildTable c, acc := c.init,
                     status := { Status.zero with ready := true } }

/-- The block with the given events at its port. -/
def sending (s : State) (events : List Event) : State := { s with pending := events }

/-- STATUS = 0B (V-K2, V-B12). -/
def status0B : Status := { ready := true, errCfg := true, errCmd := false, errState := true }

/-- The configuration of V-L3. -/
def crc8 : Cfg := { width := 8#7, poly := 0x07#64, init := 0#64, xorout := 0xFF#64, refin := false, refout := false }

/-- The configuration CRC-32 of R104. -/
def crc32 : Cfg :=
  { width := 32#7, poly := 0x04C11DB7#64, init := 0xFFFFFFFF#64, xorout := 0xFFFFFFFF#64, refin := true, refout := true }

/-- The widest configuration (V-L6). -/
def crc64 : Cfg :=
  { width := 64#7, poly := 0x42F0E1EBA9EA3693#64, init := 0#64, xorout := 0#64, refin := false, refout := false }

/-- The 12-bit configuration of V-A6 and V-A14. -/
def crc12 (refin : Bool) : Cfg :=
  { width := 12#7, poly := 0x80F#64, init := 0#64, xorout := 0#64, refin := refin, refout := false }

/-- The zero polynomial at a width (R103 (d)). -/
def zeroPoly (w : BitVec 7) (refin : Bool) : Cfg :=
  { width := w, poly := 0#64, init := 0#64, xorout := 0#64, refin := refin, refout := false }

/-! ### Well-formedness -/

theorem test_wellFormed_feed : (Instr.feed 8#8).wellFormed = true ∧ (Instr.feed 9#8).wellFormed = false := by decide

theorem test_wellFormed_reflect :
    (Instr.reflect 0#8).wellFormed = false ∧ (Instr.reflect 1#8).wellFormed = true ∧
    (Instr.reflect 64#8).wellFormed = true ∧ (Instr.reflect 65#8).wellFormed = false := by decide

theorem test_wellFormed_rdtab : (Instr.rdtab 255#8).wellFormed = true := by decide

/-! ### Decoding: RSV, ARG and OPC written out from R70 and R73 -/

theorem test_decode_nop :
    decode (0#32 ++ 0b0000000000000000#16 ++ 0b00000000#8 ++ 0b00000000#8) = .ok .nop := by decide
theorem test_decode_configure :
    decode (0#32 ++ 0b0000000000000000#16 ++ 0b00000000#8 ++ 0b00000001#8) = .ok .configure := by decide
theorem test_decode_start :
    decode (0#32 ++ 0b0000000000000000#16 ++ 0b00000000#8 ++ 0b00000010#8) = .ok .start := by decide
theorem test_decode_feed :
    decode (0#32 ++ 0b0000000000000000#16 ++ 0b00001000#8 ++ 0b00000011#8) = .ok (.feed 8#8) := by decide
theorem test_decode_final :
    decode (0#32 ++ 0b0000000000000000#16 ++ 0b00000000#8 ++ 0b00000100#8) = .ok .final := by decide
theorem test_decode_reflect :
    decode (0#32 ++ 0b0000000000000000#16 ++ 0b01000000#8 ++ 0b00000101#8) = .ok (.reflect 64#8) := by decide
theorem test_decode_rdtab :
    decode (0#32 ++ 0b0000000000000000#16 ++ 0b11111111#8 ++ 0b00000110#8) = .ok (.rdtab 255#8) := by decide
theorem test_decode_clrerr :
    decode (0#32 ++ 0b0000000000000000#16 ++ 0b00000000#8 ++ 0b00000111#8) = .ok .clrerr := by decide

/-- V-E3, V-E4, V-E5, V-E7, V-K4 and V-R21. -/
theorem test_decode_rejects :
    decode 0x00000903#64 = .error .illegalArg ∧ decode 0x00010002#64 = .error .reservedBits ∧
    decode 0x00000008#64 = .error .reservedOpcode ∧ decode 0x0000000100000004#64 = .error .upperHalf ∧
    decode 0x00000100#64 = .error .illegalArg ∧ decode 0x00000005#64 = .error .illegalArg ∧
    decode 0x00004105#64 = .error .illegalArg := by decide

theorem test_decodeTableWord :
    decodeTableWord 32 0x00000803 = some (.feed 8#8) ∧ decodeTableWord 32 0x00000903 = none := by decide

/-! ### The commands -/

theorem test_nop : field (·.acc) (exec .nop (ready crc32)) = some 0xFFFFFFFF#64 := by decide +kernel

/-- V-C3, and T[01] of CRC-32 in section 2.2. -/
theorem test_configure :
    field statusWord (exec .configure { State.reset with staged := crc8 }) = some 0x01#64 ∧
    field (fun t => tableAt t.table 1#8) (exec .configure { State.reset with staged := crc32 }) =
      some 0x77073096#64 := by decide +kernel

/-- V-C4: a polynomial bit at the width. -/
theorem test_configure_fails :
    field statusWord (exec .configure { ready crc8 with staged := { crc8 with poly := 0x107#64 } }) =
      some 0x02#64 := by decide +kernel

/-- V-C15 and V-A19. -/
theorem test_start : field (·.acc) (exec .start { ready crc32 with acc := 0x340BC6D9#64 }) = some 0xFFFFFFFF#64 := by
  decide +kernel

/-- V-E1. -/
theorem test_start_not_ready : field statusWord (exec .start State.reset) = some 0x08#64 := by decide +kernel

/-- V-A3 after eight bytes: FEED 8 of "12345678". -/
theorem test_feed : field (·.acc) (exec (.feed 8#8) { ready crc32 with din := 0x3837363534333231#64 }) =
    some 0x651F2550#64 := by decide +kernel

/-- V-A17: lanes 4 to 7 are not consumed. -/
theorem test_feed_some_lanes : field (·.acc) (exec (.feed 4#8) { ready crc32 with din := 0x3938373635343332#64 }) =
    some 0x4F2D7CD4#64 := by decide +kernel

/-- V-F1. -/
theorem test_final : field (·.result) (exec .final { ready crc32 with acc := 0x340BC6D9#64 }) = some 0xCBF43926#64 := by
  decide +kernel

/-- V-F6: the complement is masked to 12 bits. -/
theorem test_final_complement :
    field (·.result) (exec .final { ready (crc12 false) with acc := 0xF5B#64 }) = some 0x0A4#64 := by decide +kernel

/-- V-R5, with READY = 0 (V-R22). -/
theorem test_reflect : field (·.result) (exec (.reflect 16#8) { State.reset with din := 0x1234#64 }) =
    some 0x2C48#64 := by decide +kernel

/-- V-R7. -/
theorem test_reflect_64 : field (·.result) (exec (.reflect 64#8) { State.reset with din := 0x0123456789ABCDEF#64 }) =
    some 0xF7B3D591E6A2C480#64 := by decide +kernel

/-- T[FF] of CRC-32 in section 2.2. -/
theorem test_rdtab : field (·.result) (exec (.rdtab 255#8) (ready crc32)) = some 0x2D02EF8D#64 := by decide +kernel

/-- T[80] at width 64 in section 2.2. -/
theorem test_rdtab_64 : field (·.result) (exec (.rdtab 0x80#8) (ready crc64)) = some 0xF6FAE5C07D3274CD#64 := by
  decide +kernel

/-- V-K2: STATUS 0B becomes 01. -/
theorem test_clrerr :
    field statusWord (exec .clrerr { ready crc8 with status := status0B }) = some 0x01#64 := by decide +kernel

/-! ### The arithmetic -/

/-- 12-bit entries of section 2.2, both directions. -/
theorem test_table_12 :
    tableEntry (crc12 false) 0x80#8 = 0xD05#64 ∧ tableEntry (crc12 true) 0x80#8 = 0xF01#64 ∧
    tableEntry (crc12 false) 0xFF#8 = 0x606#64 ∧ tableEntry (crc12 true) 0x02#8 = 0xA15#64 := by decide +kernel

/-- V-A8, V-A9 and V-A13. -/
theorem test_crcStep :
    crcStep (zeroPoly 16#7 false) (buildTable (zeroPoly 16#7 false)) 0x1234#64 0xAB#8 = 0x3400#64 ∧
    crcStep (zeroPoly 16#7 true) (buildTable (zeroPoly 16#7 true)) 0x1234#64 0xAB#8 = 0x0012#64 ∧
    crcStep crc64 (buildTable crc64) 0#64 0x41#8 = 0x98F5E3FE438617BC#64 := by decide +kernel

/-! ### The port -/

/-- V-B13 and V-B15: a 4-byte write replaces one half. -/
theorem test_write_half :
    field (·.staged.poly) (step (sending { State.reset with staged := { Cfg.zero with poly := 0x04C11DB7#64 } }
      [.access (.write 0x14#8 4 1#64)])) = some 0x0000000104C11DB7#64 ∧
    field (·.din) (step (sending { State.reset with din := 0x3837363534333231#64 }
      [.access (.write 0x28#8 4 0x39#64)])) = some 0x3837363500000039#64 := by decide +kernel

/-- V-B14: the reserved bits of CFG_CTRL, and of CFG_WIDTH in V-C14. -/
theorem test_write_reserved_bits :
    field (readReg .cfgCtrl) (step (sending State.reset [.access (.write 0x08#8 8 0xFF#64)])) = some 3#64 ∧
    field (readReg .cfgWidth) (step (sending State.reset [.access (.write 0x00#8 4 0xFFFFFFFF#64)])) = some 0x7F#64 := by
  decide +kernel

/-- V-B12 and V-B3. -/
theorem test_read :
    field (·.responses) (step (sending { State.reset with status := status0B } [.access (.read 0x38#8 4)])) = some [.data32 0x0000000B#32] ∧
    field (·.responses) (step (sending State.reset [.access (.read 0x04#8 8)])) = some [.busError 0x04#8] := by
  decide +kernel

/-- V-B8: no command is issued; V-E7: the upper half makes it malformed. -/
theorem test_command_upper_half :
    field statusWord (step (sending State.reset [.access (.write 0x34#8 4 2#64)])) = some 0x00#64 ∧
    field statusWord (step (sending State.reset [.access (.write 0x30#8 8 0x0000000100000004#64)])) = some 0x04#64 := by
  decide +kernel

/-- V-I5: reset returns the block to its reset values. -/
theorem test_reset :
    field (fun t => (readReg .result t, statusWord t, t.staged)) (step (sending { ready crc8 with result := 0xF4#64 }
      [.reset])) = some (0#64, 0#64, Cfg.zero) := by decide +kernel

/-- The host's placing of a word: the very next step runs it (V-I4). -/
theorem test_withFetchWord :
    field (·.result) (step (State.withFetchWord { State.reset with din := 0x1234#64 } 32 0x00001005)) =
      some 0x2C48#64 := by decide +kernel

/-! ### Witnesses: concrete states and operands that meet the hypotheses of a statement, clause by clause -/

theorem ready_meets_invariant {c : Cfg} (h : c.valid = true) : ReadyInv (ready c) := fun _ => by
  refine ⟨h, tableAt_buildTable c, ?_⟩
  obtain ⟨-, -, -, hi, -⟩ := (valid_iff c).mp h
  exact lt_of_getLsbD hi

theorem witness_NopChangesNothing :
    opcField 0x00000100#32 = 0x00#8 ∧ 0x00000100#32 ≠ 0x00000000#32 := by decide

theorem witness_ClrerrClearsTheStickyBits :
    opcField 0x80000007#32 = 0x07#8 ∧ 0x80000007#32 ≠ 0x00000007#32 := by decide

theorem witness_StartLoadsTheInitialValue :
    (ready crc8).status.ready = true ∧ State.reset.status.ready = false ∧
    opcField 0x00000102#32 = 0x02#8 ∧ 0x00000102#32 ≠ 0x00000002#32 := by decide

theorem witness_FeedConsumesTheLanesInOrder :
    (0#8 : Byte).toNat ≤ 8 ∧ (8#8 : Byte).toNat ≤ 8 ∧ 8 < (9#8 : Byte).toNat ∧ (ready crc8).status.ready = true ∧
    State.reset.status.ready = false := by decide

theorem witness_FinalWritesTheChecksum :
    (ready crc64).status.ready = true ∧ State.reset.status.ready = false ∧
    opcField 0x00010004#32 = 0x04#8 ∧ 0x00010004#32 ≠ 0x00000004#32 := by decide

theorem witness_ReflectReversesTheLowBitsOfDin :
    (1 ≤ (1#8 : Byte).toNat ∧ (1#8 : Byte).toNat ≤ 64) ∧ (1 ≤ (64#8 : Byte).toNat ∧ (64#8 : Byte).toNat ≤ 64) ∧
    (0#8 : Byte).toNat = 0 ∧ 64 < (65#8 : Byte).toNat := by decide

theorem witness_RdtabReadsOneEntry :
    (ready crc8).status.ready = true ∧ ReadyInv (ready crc8) ∧ State.reset.status.ready = false ∧
    opcField 0x00010006#32 = 0x06#8 ∧ rsvField 0x00010006#32 ≠ 0#16 :=
  ⟨rfl, ready_meets_invariant (by decide), rfl, by decide, by decide⟩

theorem witness_ConfigureLatchesAndBuildsTheTable :
    (∃ c : Cfg, c.width.toNat = 8 ∧ ∀ i : Nat, c.width.toNat ≤ i →
      c.poly.getLsbD i = false ∧ c.init.getLsbD i = false ∧ c.xorout.getLsbD i = false) ∧
    (∃ c : Cfg, c.width.toNat = 64 ∧ ∀ i : Nat, c.width.toNat ≤ i →
      c.poly.getLsbD i = false ∧ c.init.getLsbD i = false ∧ c.xorout.getLsbD i = false) ∧
    (zeroPoly 7#7 false).width.toNat < 8 ∧ 64 < (zeroPoly 65#7 false).width.toNat ∧
    { crc8 with poly := 0x107#64 }.poly.getLsbD 8 = true ∧
    opcField 0x00000101#32 = 0x01#8 ∧ 0x00000101#32 ≠ 0x00000001#32 := by
  have fields : ∀ c : Cfg, c.valid = true → ∀ i : Nat, c.width.toNat ≤ i →
      c.poly.getLsbD i = false ∧ c.init.getLsbD i = false ∧ c.xorout.getLsbD i = false := fun c h i hi => by
    obtain ⟨-, -, hp, hq, hx⟩ := (valid_iff c).mp h
    exact ⟨hp i hi, hq i hi, hx i hi⟩
  exact ⟨⟨crc8, by decide, fields _ (by decide)⟩, ⟨crc64, by decide, fields _ (by decide)⟩, by decide⟩

theorem witness_CommandsLeaveTheOtherWindowBytes :
    answers (exec .final (ready crc8)) = true ∧ (0x37#8 : Byte).toNat < 0x38 ∧ 0x47 < (0x48#8 : Byte).toNat ∧
    answers (exec .configure (ready crc8)) = true ∧ 0x3F < (0x40#8 : Byte).toNat ∧
    answers (exec (.reflect 8#8) State.reset) = true ∧ (Instr.reflect 8#8).wellFormed = true ∧
    (0x3F#8 : Byte).toNat < 0x40 ∧ (ready crc8).status.ready = true := by decide +kernel

theorem witness_CommandsWriteOnlyTheirOwnState :
    answers (exec .clrerr State.reset) = true ∧ answers (exec .configure State.reset) = true ∧
    answers (exec (.rdtab 0#8) (ready crc8)) = true := by decide +kernel

theorem witness_DecodingAnEncodedCommandGivesItBack :
    (Instr.feed 8#8).wellFormed = true ∧ (Instr.reflect 1#8).wellFormed = true ∧
    (Instr.reflect 64#8).wellFormed = true ∧ (Instr.rdtab 255#8).wellFormed = true := by decide

theorem witness_OpcodeMapIsExact :
    (Instr.feed 0#8).wellFormed = true ∧ State.reset.status.ready = false ∧ State.reset.status.errState = false ∧
    answers (exec (.feed 0#8) State.reset) = true := by decide +kernel

/-- One value in each illegal class of R74, at its boundary, and one in none. -/
theorem witness_IllegalWordsAreCmdErrors :
    (0x0000000100000000#64).extractLsb' 32 32 ≠ 0#32 ∧ (0x00010000#64).extractLsb' 16 16 ≠ 0#16 ∧
    0x08 ≤ ((0x00000008#64).extractLsb' 0 8).toNat ∧ ((0x00000107#64).extractLsb' 8 8).toNat ≠ 0 ∧
    9 ≤ ((0x00000903#64).extractLsb' 8 8).toNat ∧ ((0x00000005#64).extractLsb' 8 8).toNat = 0 ∧
    65 ≤ ((0x00004105#64).extractLsb' 8 8).toNat ∧
    decode 0x00000803#64 = .ok (.feed 8#8) := by decide

theorem witness_StepRunsTheDecodedCommand :
    decode ((0xFFFFFFFF00000803#64).extractLsb' 0 32 |>.setWidth 64) = .ok (.feed 8#8) ∧
    (sending State.reset [.access (.write 0x30#8 4 0xFFFFFFFF00000803#64)]).pending =
      .access (.write 0x30#8 4 0xFFFFFFFF00000803#64) :: [] ∧
    decode 0x00000001#64 = .ok .configure ∧
    (sending State.reset [.access (.write 0x30#8 8 0x00000001#64)]).pending =
      .access (.write 0x30#8 8 0x00000001#64) :: [] := by decide

theorem witness_StepRejectsMalformedCommands :
    decode ((0x00000903#64).extractLsb' 0 32 |>.setWidth 64) = .error .illegalArg ∧
    (sending State.reset [.access (.write 0x30#8 4 0x00000903#64)]).pending =
      .access (.write 0x30#8 4 0x00000903#64) :: [] ∧
    decode 0x0000000100000004#64 = .error .upperHalf ∧
    (sending State.reset [.access (.write 0x30#8 8 0x0000000100000004#64)]).pending =
      .access (.write 0x30#8 8 0x0000000100000004#64) :: [] := by decide

/-- An access in each case of R56 and one legal access beside each boundary. -/
theorem witness_BusErrorsExactlyAsListed :
    (Access.read 0x00#8 2).isBusError = true ∧ (Access.read 0x02#8 4).isBusError = true ∧
    (Access.read 0x04#8 8).isBusError = true ∧ (Access.read 0x48#8 4).isBusError = true ∧
    (Access.read 0x00#8 0).isBusError = true ∧ (Access.read 0x44#8 4).isBusError = false ∧
    (Access.write 0x38#8 8 0#64).isBusError = true ∧ (Access.write 0x44#8 4 0#64).isBusError = true ∧
    (Access.write 0x34#8 4 0#64).isBusError = true ∧ (Access.write 0x30#8 8 0#64).isBusError = false ∧
    (Access.write 0x30#8 4 0#64).isBusError = false ∧
    (sending State.reset [.access (.read 0x48#8 4)]).pending = .access (.read 0x48#8 4) :: [] := by decide

theorem witness_ReadsReturnTheRegisterAndChangeNothing :
    (sending State.reset [.access (.read 0x40#8 8)]).pending = .access (.read Reg.result.offset 8) :: [] ∧
    (sending State.reset [.access (.read 0x00#8 4)]).pending = .access (.read Reg.cfgWidth.offset 4) :: [] ∧
    (sending State.reset [.access (.read 0x34#8 4)]).pending = .access (.read (Reg.cmd.offset + 4#8) 4) :: [] := by
  decide

theorem witness_ReadsAreLittleEndian :
    ((0x40#8 : Byte).toNat % 8 = 0 ∧ (0x40#8 : Byte).toNat < 0x48) ∧
    ((0x44#8 : Byte).toNat % 4 = 0 ∧ (0x44#8 : Byte).toNat < 0x48) ∧
    (sending State.reset [.access (.read 0x40#8 8)]).pending = .access (.read 0x40#8 8) :: [] ∧
    (sending State.reset [.access (.read 0x44#8 4)]).pending = .access (.read 0x44#8 4) :: [] := by decide

theorem witness_WritesReplaceTheBytesTheyName :
    Reg.din ≠ .cmd ∧ Reg.din ≠ .status ∧ Reg.din ≠ .result ∧
    (sending State.reset [.access (.write 0x28#8 8 1#64)]).pending =
      .access (.write (Reg.din.offset + BitVec.ofNat 8 0) 8 1#64) :: [] ∧
    (sending State.reset [.access (.write 0x28#8 4 1#64)]).pending =
      .access (.write (Reg.din.offset + BitVec.ofNat 8 0) 4 1#64) :: [] ∧
    (sending State.reset [.access (.write 0x2C#8 4 1#64)]).pending =
      .access (.write (Reg.din.offset + BitVec.ofNat 8 4) 4 1#64) :: [] := by decide

theorem witness_AccessesButCmdWritesAreIdempotent :
    (∃ t u, step (sending State.reset [.access (.read 0x40#8 8), .access (.read 0x40#8 8)]) = .next t ∧
      step t = .next u) ∧
    (0x2C#8 : Byte).toNat < 0x30 ∧
    ∃ t u, step (sending State.reset [.access (.write 0x2C#8 4 7#64), .access (.write 0x2C#8 4 7#64)]) = .next t ∧
      step t = .next u := ⟨⟨_, _, rfl, rfl⟩, by decide, _, _, rfl, rfl⟩

theorem witness_NothingChangesWithoutAnEvent : (ready crc8).pending = [] := rfl

theorem witness_TheWindowIsDecodedByOffset :
    (Config.base + 256 < Config.base ∨ Config.base + 256 ≤ Config.base + 256) ∧
    (0x47#8 : Byte).toNat < 0x48 ∧ 0x48 ≤ (0x48#8 : Byte).toNat :=
  ⟨.inr (Nat.le_refl _), by decide, by decide⟩

/-- For each bit, an event that sets it and, where there is one, an event that clears it. -/
theorem witness_StatusBitsHaveOnlyTheirOwnCauses :
    field (·.status.ready) (step (State.withFetchWord { State.reset with staged := crc8 } 32 1)) = some true ∧
    field (·.status.ready) (step (sending (ready crc8) [.reset])) = some false ∧
    field (·.status.ready) (step (State.withFetchWord { ready crc8 with staged := Cfg.zero } 32 1)) = some false ∧
    field (·.status.errCfg) (step (State.withFetchWord State.reset 32 1)) = some true ∧
    field (·.status.errCmd) (step (State.withFetchWord State.reset 32 8)) = some true ∧
    field (·.status.errState) (step (State.withFetchWord State.reset 32 2)) = some true ∧
    nextIsReset (State.withFetchWord State.reset 32 0) = false ∧
    nextCommand (State.withFetchWord State.reset 32 0) = some .nop ∧
    answers (step (State.withFetchWord State.reset 32 0)) = true := by decide +kernel

theorem witness_StateErrorOnlyWithoutReady :
    State.reset.status.ready = false ∧ (Instr.feed 8#8).wellFormed = true ∧
    (ready crc8).status.ready = true ∧
    field (·.status.errState) (exec .final { ready crc8 with status := status0B }) = some true ∧
    field (·.status.errState) (exec .nop { State.reset with status := { Status.zero with errState := true } }) =
      some true ∧
    answers (exec .configure State.reset) = true ∧ State.reset.staged.valid = false := by decide +kernel

/-- Both sides of R161 at the boundary widths. -/
theorem witness_CfgErrorExactlyOnInvalidConfigurations :
    (zeroPoly 7#7 true).valid = false ∧ (zeroPoly 8#7 true).valid = true ∧ (zeroPoly 64#7 true).valid = true ∧
    (zeroPoly 65#7 true).valid = false := by decide

theorem witness_AtMostOneErrorAtATime :
    (Access.write 0x34#8 4 2#64).isBusError = true ∧
    answers (step (sending State.reset [.access (.write 0x34#8 4 2#64)])) = true ∧
    nextCommandValue (State.withFetchWord State.reset 32 0x102) ≠ none ∧
    nextCommand (State.withFetchWord State.reset 32 0x102) = none ∧
    answers (step (State.withFetchWord State.reset 32 0x102)) = true ∧
    nextCommand (State.withFetchWord State.reset 32 2) = some .start ∧
    (State.withFetchWord State.reset 32 2).status.ready = false ∧
    answers (step (State.withFetchWord State.reset 32 2)) = true := by decide +kernel

theorem witness_NoChecksumWithoutAValidConfiguration :
    answers (step (State.withFetchWord State.reset 32 4)) = true ∧
    (State.withFetchWord State.reset 32 4).status.ready = false ∧
    ¬(nextCommand (State.withFetchWord State.reset 32 4) = some .configure ∧
      (State.withFetchWord State.reset 32 4).staged.valid = true) := by decide +kernel

theorem witness_ResetClearsTheBlock :
    (sending (ready crc8) [.reset]).pending = .reset :: [] ∧ answers (step (sending (ready crc8) [.reset])) = true := by
  decide +kernel

theorem witness_ResetWinsOverAnAccess :
    (sending (ready crc8) [.resetDuring (.write 0x28#8 8 1#64)]).pending =
      .resetDuring (.write 0x28#8 8 1#64) :: [] := rfl

theorem witness_OutOfReset :
    (Instr.feed 8#8).wellFormed = true ∧ (1 ≤ (64#8 : Byte).toNat ∧ (64#8 : Byte).toNat ≤ 64) ∧
    crc8.valid = true ∧ { crc32 with width := 0#7 }.width = State.reset.staged.width := by decide

theorem witness_EveryStepKeepsTheReadyInvariant :
    ReadyInv (ready crc8) ∧ (ready crc8).status.ready = true ∧
    answers (step (State.withFetchWord (ready crc8) 32 0x103)) = true :=
  ⟨ready_meets_invariant (by decide), rfl, rfl⟩

/-- Two different states that the host cannot tell apart: TABLE and ACC differ while READY = 0. -/
theorem witness_HiddenStateNeverReachesTheHost :
    SameToHost State.reset { State.reset with table := Vector.replicate 256 1#64, acc := 5#64 } ∧
    State.reset ≠ { State.reset with table := Vector.replicate 256 1#64, acc := 5#64 } ∧
    ∃ s' t', Host.Core.run Sys2Proof.core 1 State.reset = .next s' ∧
      Host.Core.run Sys2Proof.core 1 { State.reset with table := Vector.replicate 256 1#64, acc := 5#64 } = .next t' :=
  ⟨⟨rfl, rfl, rfl, rfl, rfl, rfl, rfl, nofun, nofun, nofun⟩, fun h => absurd (congrArg State.acc h) (by decide),
    _, _, rfl, rfl⟩

theorem witness_OnlyConfigureSeesTheStagedConfiguration :
    Instr.final ≠ .configure ∧ answers (exec .final (ready crc8)) = true := by decide +kernel

theorem witness_AccumulationStepBitByBit :
    (0xF3#8 : Byte).toNat = 0x97 / 2 ^ (crc8.width.toNat - 8) % 256 ^^^ (0x64#8 : Byte).toNat ∧
    8 ≤ crc8.width.toNat ∧ crc8.width.toNat ≤ 64 ∧
    (0xCE#8 : Byte).toNat = 0xFFFFFFFF % 256 ^^^ (0x31#8 : Byte).toNat ∧ 8 ≤ crc64.width.toNat ∧
    crc64.width.toNat ≤ 64 := by decide

theorem witness_TableEntryIsTheDivisionLoop :
    (8 ≤ crc8.width.toNat ∧ crc8.width.toNat ≤ 64) ∧ (8 ≤ crc64.width.toNat ∧ crc64.width.toNat ≤ 64) := by decide

theorem witness_TableEntryAnchors :
    crc8.valid = true ∧ crc8.refin = false ∧ crc32.valid = true ∧ crc32.refin = true := by decide

theorem witness_TableEntryBasics :
    crc8.width = { crc8 with init := 1#64, refout := true }.width ∧
    (8 ≤ (zeroPoly 8#7 false).width.toNat ∧ (zeroPoly 8#7 false).poly = 0#64) ∧
    ((zeroPoly 64#7 true).width.toNat ≤ 64 ∧ (zeroPoly 64#7 true).poly = 0#64) := by decide

theorem witness_ReflectedTableIsTheRightShiftingTable : crc32.valid = true ∧ crc32.refin = true := by decide

theorem witness_TableDrivenStepIsBitwiseDivision :
    (crc8.valid = true ∧ (0xFF#64 : Word).toNat < 2 ^ crc8.width.toNat ∧ crc8.refin = false) ∧
    (crc32.valid = true ∧ (0xFFFFFFFF#64 : Word).toNat < 2 ^ crc32.width.toNat ∧ crc32.refin = true) := by decide

theorem witness_AccumulationStepCorners :
    (crc8.width.toNat = 8 ∧ (0xFF#64 : Word).toNat < 256) ∧
    (8 ≤ (zeroPoly 64#7 true).width.toNat ∧ (zeroPoly 64#7 true).width.toNat ≤ 64 ∧ (zeroPoly 64#7 true).poly = 0#64 ∧
      (1#64 : Word).toNat < 2 ^ (zeroPoly 64#7 true).width.toNat) := by decide

theorem witness_FinalizationMapping :
    crc8.valid = true ∧ (0xFF#64 : Word).toNat < 2 ^ crc8.width.toNat ∧ crc8.refout = false := by decide

theorem witness_FinalizationIsInvertible :
    crc8.valid = true ∧ (0xFF#64 : Word).toNat < 2 ^ crc8.width.toNat ∧
    finalize crc8 0xFF#64 = finalize crc8 0xFF#64 := by decide

theorem witness_ReflectionIsAnInvolution : (1 ≤ 1 ∧ 1 ≤ 64) ∧ (1 ≤ 64 ∧ 64 ≤ 64) := by decide

theorem witness_ReflectionIsByteReflectionAndByteReversal : 1 ≤ 8 ∧ 8 ≤ 8 ∧ 7 < 8 := by decide

theorem witness_FeedSplitsAnywhere :
    (3#8 : Byte).toNat + (5#8 : Byte).toNat ≤ 8 ∧ (ready crc8).status.ready = true ∧
    ∃ t u, exec (.feed 3#8) (ready crc8) = .next t ∧
      exec (.feed 5#8) { t with din := (ready crc8).din >>> (8 * (3#8 : Byte).toNat) } = .next u :=
  ⟨by decide, rfl, _, _, rfl, rfl⟩

theorem witness_EmptyInputChecksum :
    (ready crc8).status.ready = true ∧ ∃ t, exec .start (ready crc8) = .next t := ⟨rfl, _, rfl⟩

theorem witness_CalculateLaw :
    ReadyInv (sending (ready crc8) (calculateAccesses [(0x31#64, 1#8), (0#64, 0#8), (0x32#64, 8#8)])) ∧
    (ready crc8).status.ready = true ∧ (1#8 : Byte).toNat ≤ 8 ∧ (0#8 : Byte).toNat ≤ 8 ∧ (8#8 : Byte).toNat ≤ 8 :=
  ⟨ready_meets_invariant (c := crc8) (by decide), rfl, by decide⟩

end Sys2Proof.Tests
end

namespace Sys2Proof.Machine

/-! ### Reset (R37, R180) -/

/-- R24, R37: CFG_CTRL reads 0 at reset. -/
theorem ctrlWord_zero : Cfg.zero.ctrlWord = 0#64 := by decide

/-- R30, R37: STATUS reads 0 at reset. -/
theorem toWord_zero : Status.zero.toWord = 0#64 := by decide

/-- R37, R54: after the reset input the host reads 0 from every register; the two that are packed from flags are the
words above. -/
@[simp] theorem readReg_applyReset (r : Reg) (s : State) : readReg r (applyReset s) = 0#64 := by
  cases r with
  | cfgCtrl => exact ctrlWord_zero
  | status => exact toWord_zero
  | cfgWidth | cfgPoly | cfgInit | cfgXorout | din | cmd | result => rfl

/-- The reset state is what the reset input leaves when it comes in the reset state. -/
theorem applyReset_reset : applyReset State.reset = State.reset := rfl

/-- R60, R180: a step whose event is a reset applies the reset input and takes the event off the port. -/
theorem step_reset {s : State} {rest : List Event} (h : s.pending = .reset :: rest) :
    step s = .next (applyReset { s with pending := rest }) := step_cons h

/-- Settles O32: the reset state, and the state after a reset step, are both what the reset input leaves of some
state, and that is 0 field by field whatever the state was. -/
theorem resetClearsTheBlock : Obligations.ResetClearsTheBlock := by
  intro u hu
  obtain ⟨s, rfl⟩ : ∃ s, u = applyReset s := by
    rcases hu with rfl | ⟨s, rest, hp, hstep⟩
    · exact ⟨State.reset, applyReset_reset.symm⟩
    · rw [step_reset hp] at hstep
      cases hstep
      exact ⟨_, rfl⟩
  simp [Cfg.zero, Status.zero]

end Sys2Proof.Machine

namespace Sys2Proof.Machine

/-! ### The bus errors (R56) -/

/-- R56 (a), (b) and (c) as propositions. -/
theorem badAccess_iff (off : Byte) (n : Nat) :
    badAccess off n = true ↔ ¬(n = 4 ∨ n = 8) ∨ off.toNat % n ≠ 0 ∨ 0x48 ≤ off.toNat := by
  simp [badAccess, or_assoc]

/-- R56 (d) and (e) as propositions. -/
theorem badWrite_iff (off : Byte) (n : Nat) :
    badWrite off n = true ↔ (0x38 ≤ off.toNat ∧ off.toNat ≤ 0x47) ∨ (n = 4 ∧ off.toNat = 0x34) := by
  simp [badWrite]

/-- The bus errors of a read are (a) to (c). -/
theorem isBusError_read_iff (off : Byte) (n : Nat) :
    (Access.read off n).isBusError = true ↔ ¬(n = 4 ∨ n = 8) ∨ off.toNat % n ≠ 0 ∨ 0x48 ≤ off.toNat :=
  badAccess_iff off n

/-- The bus errors of a write are (a) to (e). -/
theorem isBusError_write_iff (off : Byte) (n : Nat) (v : Word) :
    (Access.write off n v).isBusError = true ↔
      ¬(n = 4 ∨ n = 8) ∨ off.toNat % n ≠ 0 ∨ 0x48 ≤ off.toNat ∨ (0x38 ≤ off.toNat ∧ off.toNat ≤ 0x47) ∨
        (n = 4 ∧ off.toNat = 0x34) := by
  rw [Access.isBusError, Bool.or_eq_true, badAccess_iff, badWrite_iff, or_assoc, or_assoc]

/-! ### What a step does with an access (R54, R55, R56) -/

/-- R56: a step whose access is a bus error answers it and changes nothing in the block. -/
theorem step_busError {s : State} {a : Access} {rest : List Event} (h : s.pending = .access a :: rest)
    (hb : a.isBusError = true) :
    step s = .next { s with pending := rest, responses := .busError a.off :: s.responses } := by
  simp [step_cons h, performEvent, performAccess, completion, hb, respond]

/-- A read sees the registers only, not what waits at the port. -/
theorem readData_with_pending (off : Byte) (n : Nat) (s : State) (rest : List Event) :
    readData off n { s with pending := rest } = readData off n s := rfl

/-- R54: a step whose access is a legal read answers its data and changes nothing in the block. -/
theorem step_legal_read {s : State} {off : Byte} {n : Nat} {rest : List Event}
    (h : s.pending = .access (.read off n) :: rest) (hb : (Access.read off n).isBusError = false) :
    step s = .next { s with pending := rest, responses := readData off n s :: s.responses } := by
  simp [step_cons h, performEvent, performAccess, completion, hb, respond, readData_with_pending]

/-- R55: a step whose access is a legal write performs it on the state that has answered it. -/
theorem step_legal_write {s : State} {off : Byte} {n : Nat} {v : Word} {rest : List Event}
    (h : s.pending = .access (.write off n v) :: rest) (hb : (Access.write off n v).isBusError = false) :
    step s = performWrite off n v { s with pending := rest, responses := .done :: s.responses } := by
  simp [step_cons h, performEvent, performAccess, completion, hb, respond]

/-- A command leaves the host's side of the port, and the free value's counter, alone. -/
theorem exec_keeps_port {i : Instr} {s t : State} (h : exec i s = .next t) :
    t.pending = s.pending ∧ t.responses = s.responses ∧ t.draws = s.draws := by
  rcases exec_cases h with ⟨-, rfl⟩ | ⟨-, rfl⟩ | ⟨-, -, rfl⟩ | ⟨-, -, rfl⟩ |
    ⟨-, ⟨-, rfl⟩ | ⟨_, -, -, rfl⟩ | ⟨-, rfl⟩ | ⟨_, -, rfl⟩⟩ | ⟨-, rfl, -⟩ | ⟨_, -, -, -, rfl⟩ | ⟨-, rfl, -⟩ <;>
  exact ⟨rfl, rfl, rfl⟩

/-- R72: a value written to CMD always gives a next state, with the host's side of the port as it was. -/
theorem issueCommand_next (v : Word) (s : State) :
    ∃ t, issueCommand v s = .next t ∧ t.pending = s.pending ∧ t.responses = s.responses ∧ t.draws = s.draws := by
  cases hd : decode v with
  | ok i =>
    obtain ⟨t, ht⟩ := exec_next i s
    exact ⟨t, (issueCommand_ok hd s).trans ht, exec_keeps_port ht⟩
  | error e => exact ⟨_, issueCommand_error hd s, rfl, rfl, rfl⟩

/-- A write to CMD issues the command of its value (R72). -/
theorem performWrite_cmd {off : Byte} (hr : regAt off = some .cmd) (n : Nat) (v : Word) (s : State) :
    performWrite off n v s = issueCommand (commandValue n v) s := by
  simp [performWrite, hr]

/-- A write to any other register stores the value it merges (R55). -/
theorem performWrite_store {off : Byte} {r : Reg} (hr : regAt off = some r) (hc : r ≠ .cmd) (n : Nat) (v : Word)
    (s : State) : performWrite off n v s = .next (writeReg r (mergeWrite off n v (readReg r s)) s) := by
  cases r with
  | cmd => exact absurd rfl hc
  | cfgWidth | cfgCtrl | cfgPoly | cfgInit | cfgXorout | din | status | result => simp [performWrite, hr]

/-- A legal write always completes, with the host's side of the port as it was. -/
theorem performWrite_next {off : Byte} {n : Nat} {v : Word} (hb : (Access.write off n v).isBusError = false)
    (s : State) :
    ∃ t, performWrite off n v s = .next t ∧
      t.pending = s.pending ∧ t.responses = s.responses ∧ t.draws = s.draws := by
  obtain ⟨r, hr, -, -⟩ := legal_write_register hb
  by_cases hc : r = .cmd
  · subst hc
    rw [performWrite_cmd hr]
    exact issueCommand_next _ s
  · obtain ⟨-, -, -, -, -, hport⟩ := writeReg_frame s r (mergeWrite off n v (readReg r s))
    exact ⟨_, performWrite_store hr hc n v s, hport⟩

/-- Settles O18: the listed cases are exactly `Access.isBusError`, and on either side of it a step answers what the
lemmas above say. -/
theorem busErrorsExactlyAsListed : Obligations.BusErrorsExactlyAsListed := by
  refine ⟨fun s rest off n h => ?_, fun s rest off n v h => ?_⟩
  · rw [← isBusError_read_iff, Bool.not_eq_true]
    exact ⟨step_busError h, fun hb => ⟨_, _, step_legal_read h hb, rfl, readData_ne_busError off n s⟩⟩
  · rw [← isBusError_write_iff off n v, Bool.not_eq_true]
    refine ⟨step_busError h, fun hb => ?_⟩
    rw [step_legal_write h hb]
    obtain ⟨t, ht, -, hresp, -⟩ := performWrite_next hb { s with pending := rest, responses := .done :: s.responses }
    exact ⟨t, ht, hresp⟩

/-! ### What a read returns (R54) -/

/-- The register at its own offset, and at the upper half of it. -/
@[simp] theorem registerOf_offset (r : Reg) (s : State) : registerOf r.offset s = readReg r s := by
  simp [registerOf]

@[simp] theorem registerOf_offset_upper (r : Reg) (s : State) : registerOf (r.offset + 4#8) s = readReg r s := by
  simp [registerOf]

/-- A register's offset names its lower half (R53). -/
@[simp] theorem halfAt_offset (r : Reg) (x : Word) : halfAt r.offset x = x.extractLsb' 0 32 := by cases r <;> rfl

/-- The offset 4 above it names its upper half (R53). -/
@[simp] theorem halfAt_offset_upper (r : Reg) (x : Word) : halfAt (r.offset + 4#8) x = x.extractLsb' 32 32 := by
  cases r <;> rfl

/-- The reads of R54 at a register's offset, and 4 above it, are legal. -/
theorem offset_read_legal (r : Reg) :
    (Access.read r.offset 8).isBusError = false ∧ (Access.read r.offset 4).isBusError = false ∧
    (Access.read (r.offset + 4#8) 4).isBusError = false := by
  cases r <;> decide

/-- CFG_WIDTH bit by bit (R23): the seven bits of WIDTH, 0 above them. -/
theorem getLsbD_readReg_cfgWidth (s : State) {i : Nat} (hi : i < 64) :
    (readReg .cfgWidth s).getLsbD i = (decide (i < 7) && s.staged.width.getLsbD i) := by
  by_cases h : i < 7
  · simp [readReg, hi, h]
  · have hz : s.staged.width.getLsbD i = false := BitVec.getLsbD_of_ge _ _ (by omega)
    simp [readReg, h, hz]

/-- CFG_CTRL bit by bit (R24). -/
theorem readReg_cfgCtrl_bits (s : State) :
    (readReg .cfgCtrl s).getLsbD 0 = s.staged.refin ∧ (readReg .cfgCtrl s).getLsbD 1 = s.staged.refout ∧
    ∀ i : Nat, 2 ≤ i → (readReg .cfgCtrl s).getLsbD i = false := by
  refine ⟨getLsbD_ctrlWord _ 0, getLsbD_ctrlWord _ 1, fun i hi => ?_⟩
  obtain ⟨j, rfl⟩ := Nat.exists_eq_add_of_le' hi
  exact getLsbD_ctrlWord _ (j + 2)

/-- STATUS bit by bit (R30). -/
theorem readReg_status_bits (s : State) :
    (readReg .status s).getLsbD 0 = s.status.ready ∧ (readReg .status s).getLsbD 1 = s.status.errCfg ∧
    (readReg .status s).getLsbD 2 = s.status.errCmd ∧ (readReg .status s).getLsbD 3 = s.status.errState ∧
    ∀ i : Nat, 4 ≤ i → (readReg .status s).getLsbD i = false := by
  refine ⟨getLsbD_statusWord _ 0, getLsbD_statusWord _ 1, getLsbD_statusWord _ 2, getLsbD_statusWord _ 3,
    fun i hi => ?_⟩
  obtain ⟨j, rfl⟩ := Nat.exists_eq_add_of_le' hi
  exact getLsbD_statusWord _ (j + 4)

/-- Settles O19: the three reads are legal and change nothing, the offset says which half of which register they
return, and the registers read field by field as they stand. -/
theorem readsReturnTheRegisterAndChangeNothing : Obligations.ReadsReturnTheRegisterAndChangeNothing := by
  refine ⟨fun s rest r h => ?_, fun s rest r h => ?_, fun s rest r h => ?_, fun s => ?_⟩
  · obtain ⟨hb, -, -⟩ := offset_read_legal r
    rw [step_legal_read h hb]
    simp [readData]
  · obtain ⟨-, hb, -⟩ := offset_read_legal r
    rw [step_legal_read h hb]
    simp [readData]
  · obtain ⟨-, -, hb⟩ := offset_read_legal r
    rw [step_legal_read h hb]
    simp [readData]
  · exact ⟨rfl, fun _ hi => getLsbD_readReg_cfgWidth s hi, readReg_cfgCtrl_bits s, readReg_status_bits s,
      rfl, rfl, rfl, rfl, rfl⟩

end Sys2Proof.Machine

namespace Sys2Proof

/-! ### The decoder on the fields of a CMD value (R70, R72) -/

/-- The decoder reads the four fields of the value itself: the upper half, RSV, OPC and ARG. -/
theorem decode_eq_fields (v : Word) :
    decode v = if v.extractLsb' 32 32 ≠ 0#32 then .error .upperHalf
      else if v.extractLsb' 16 16 ≠ 0#16 then .error .reservedBits
      else decodeFields (v.extractLsb' 0 8) (v.extractLsb' 8 8) := by
  simp [decode, rsvField, opcField, argField, BitVec.extractLsb'_extractLsb'_of_le]

/-- The fields of a CMD value written as its ARG field above its OPC field, with nothing above bit 15. -/
theorem fields_append (arg opc : Byte) :
    (0#48 ++ arg ++ opc : Word).extractLsb' 32 32 = 0#32 ∧ (0#48 ++ arg ++ opc : Word).extractLsb' 16 16 = 0#16 ∧
    (0#48 ++ arg ++ opc : Word).extractLsb' 0 8 = opc ∧ (0#48 ++ arg ++ opc : Word).extractLsb' 8 8 = arg := by
  have above_opc {start len : Nat} (h : 8 ≤ start) :
      (0#48 ++ arg ++ opc : Word).extractLsb' start len = (0#48 ++ arg).extractLsb' (start - 8) len :=
    BitVec.extractLsb'_append_eq_of_le h
  have above_arg {start len : Nat} (h : 8 ≤ start) :
      (0#48 ++ arg).extractLsb' start len = (0#48).extractLsb' (start - 8) len :=
    BitVec.extractLsb'_append_eq_of_le h
  refine ⟨?_, ?_, BitVec.extractLsb'_append_eq_right, ?_⟩
  · rw [above_opc (by decide), above_arg (by decide)]; rfl
  · rw [above_opc (by decide), above_arg (by decide)]; rfl
  · rw [above_opc (by decide)]; exact BitVec.extractLsb'_append_eq_right

/-- A CMD value with nothing above bit 15 is its ARG field above its OPC field. -/
theorem eq_append_of_fields {v : Word} (hup : v.extractLsb' 32 32 = 0#32) (hrsv : v.extractLsb' 16 16 = 0#16) :
    v = 0#48 ++ v.extractLsb' 8 8 ++ v.extractLsb' 0 8 := by
  have hhigh : (0#48 : BitVec 48) = v.extractLsb' 16 48 := by
    calc (0#48 : BitVec 48) = v.extractLsb' 32 32 ++ v.extractLsb' 16 16 := by rw [hup, hrsv]; rfl
      _ = _ := BitVec.extractLsb'_append_extractLsb'_eq_extractLsb' rfl
  have hlow : v.extractLsb' 16 48 ++ v.extractLsb' 8 8 = v.extractLsb' 8 56 :=
    BitVec.extractLsb'_append_extractLsb'_eq_extractLsb' rfl
  have hall : v.extractLsb' 8 56 ++ v.extractLsb' 0 8 = v.extractLsb' 0 64 :=
    BitVec.extractLsb'_append_extractLsb'_eq_extractLsb' rfl
  rw [hhigh, hlow, hall, BitVec.extractLsb'_eq_self]

/-- R71: a command without an argument is accepted with ARG 0 alone. -/
@[simp] theorem withoutArg_eq_ok_iff (arg : Byte) (i j : Instr) : withoutArg arg i = .ok j ↔ arg = 0#8 ∧ i = j := by
  unfold withoutArg
  split <;> simp [*]

/-- R72: a command with an argument is accepted exactly if that argument is legal. -/
@[simp] theorem withArg_eq_ok_iff (i j : Instr) : withArg i = .ok j ↔ i.wellFormed = true ∧ i = j := by
  unfold withArg
  split <;> simp [*]

/-! ### The opcode map (R73) -/

/-- A well-formed command decodes from its own opcode and argument. -/
theorem decodeFields_opcodeOf {i : Instr} (h : i.wellFormed = true) :
    decodeFields (opcodeOf i) (argumentOf i) = .ok i := by
  cases i with
  | nop | configure | start | final | clrerr => rfl
  | feed n | reflect n | rdtab n => exact (withArg_eq_ok_iff _ _).mpr ⟨h, rfl⟩

/-- A command that decodes is well formed, and the fields are its opcode and its argument. -/
theorem fields_of_decodeFields {opc arg : Byte} {i : Instr} (h : decodeFields opc arg = .ok i) :
    i.wellFormed = true ∧ opcodeOf i = opc ∧ argumentOf i = arg := by
  unfold decodeFields at h
  split at h
  case h_1 hopc | h_2 hopc | h_3 hopc | h_5 hopc | h_8 hopc =>
    obtain ⟨harg, rfl⟩ := (withoutArg_eq_ok_iff ..).mp h
    exact ⟨rfl, BitVec.eq_of_toNat_eq hopc.symm, harg.symm⟩
  case h_4 hopc | h_6 hopc | h_7 hopc =>
    obtain ⟨hwf, rfl⟩ := (withArg_eq_ok_iff ..).mp h
    exact ⟨hwf, BitVec.eq_of_toNat_eq hopc.symm, rfl⟩
  case h_9 => cases h

/-- The decoder accepts the words of the well-formed commands and no other value, each for its own command. -/
theorem decode_eq_ok_iff (v : Word) (i : Instr) :
    decode v = .ok i ↔ i.wellFormed = true ∧ v = 0#48 ++ argumentOf i ++ opcodeOf i := by
  rw [decode_eq_fields]
  constructor
  · intro h
    split_ifs at h with hup hrsv
    obtain ⟨hwf, hopc, harg⟩ := fields_of_decodeFields h
    rw [hopc, harg]
    exact ⟨hwf, eq_append_of_fields (not_not.mp hup) (not_not.mp hrsv)⟩
  · rintro ⟨hwf, rfl⟩
    obtain ⟨hup, hrsv, hopc, harg⟩ := fields_append (argumentOf i) (opcodeOf i)
    rw [if_neg (not_not.mpr hup), if_neg (not_not.mpr hrsv), hopc, harg]
    exact decodeFields_opcodeOf hwf

end Sys2Proof

namespace Sys2Proof.Machine

/-- The needs-READY column of R73: the commands that raise StateError while READY = 0 (R162). -/
theorem exec_raises_state_iff {i : Instr} {s t : State} (hwf : i.wellFormed = true) (hready : s.status.ready = false)
    (herr : s.status.errState = false) (h : exec i s = .next t) :
    t.status.errState = true ↔ i = .start ∨ (∃ n, i = .feed n) ∨ i = .final ∨ ∃ b, i = .rdtab b := by
  rcases exec_cases h with ⟨rfl, rfl⟩ | ⟨rfl, rfl⟩ | ⟨rfl, -, rfl⟩ | ⟨rfl, -, rfl⟩ | ⟨hr, -⟩ | ⟨-, rfl, hi⟩ |
    ⟨n, rfl, -, -, rfl⟩ | ⟨hill, -⟩
  · simp [herr]
  · simp
  · simp [herr]
  · simp [herr]
  · simp [hready] at hr
  · rcases hi with rfl | ⟨n, rfl, -⟩ | rfl | ⟨b, rfl⟩ <;> simp
  · simp [herr]
  · simp [hwf] at hill

/-- Settles O12: the accepted values are the words of the well-formed commands, read off command by command; the
needs-READY column is the StateError of `exec`. -/
theorem opcodeMapIsExact : Obligations.OpcodeMapIsExact := by
  refine ⟨fun v i => ?_, fun _ _ _ hwf hready herr h => exec_raises_state_iff hwf hready herr h⟩
  rw [decode_eq_ok_iff]
  cases i with
  | nop | configure | start | final | clrerr | rdtab b => simp [Instr.wellFormed, argumentOf, opcodeOf]
  | feed n | reflect n => simp [Instr.wellFormed, argumentOf, opcodeOf, and_assoc]

/-! ### The illegal words (R74) -/

/-- The classes of R74 that OPC and ARG decide: a reserved opcode, or an ARG that is not legal for the opcode. -/
def IllegalFields (opc arg : Nat) : Prop :=
  0x08 ≤ opc ∨ ((opc = 0 ∨ opc = 1 ∨ opc = 2 ∨ opc = 4 ∨ opc = 7) ∧ arg ≠ 0) ∨ (opc = 3 ∧ 9 ≤ arg) ∨
    (opc = 5 ∧ (arg = 0 ∨ 65 ≤ arg))

/-- The opcode map has a command for two fields exactly if they are in none of those classes. -/
theorem exists_decodeFields_iff (opc arg : Byte) :
    (∃ i, decodeFields opc arg = .ok i) ↔ ¬IllegalFields opc.toNat arg.toNat := by
  unfold decodeFields IllegalFields
  split
  case h_1 h | h_2 h | h_3 h | h_5 h | h_8 h => simp [h, ← BitVec.toNat_inj]
  case h_4 h | h_6 h => simp [h, Instr.wellFormed]; omega
  case h_7 h => simp [h, Instr.wellFormed]
  case h_9 =>
    have hopc : 8 ≤ opc.toNat := by
      simp only [imp_false] at *
      omega
    simp [hopc]

/-- A CMD value decodes exactly if it is in none of the classes of R74. -/
theorem exists_decode_iff (v : Word) :
    (∃ i, decode v = .ok i) ↔
      ¬(v.extractLsb' 32 32 ≠ 0#32 ∨ v.extractLsb' 16 16 ≠ 0#16 ∨
        IllegalFields (v.extractLsb' 0 8).toNat (v.extractLsb' 8 8).toNat) := by
  rw [decode_eq_fields]
  split_ifs with hup hrsv
  · simp [hup]
  · simp [hrsv]
  · rw [not_not] at hup hrsv
    simp [exists_decodeFields_iff, hup, hrsv]

/-- Settles O13: a value in a class of R74 does not decode, so it raises CmdError; any other decodes, to a well-formed
command, and is executed as it. -/
theorem illegalWordsAreCmdErrors : Obligations.IllegalWordsAreCmdErrors := by
  intro v s
  refine ⟨fun hill => ?_, fun hleg => ?_⟩
  · cases hd : decode v with
    | ok i => exact absurd hill ((exists_decode_iff v).mp ⟨i, hd⟩)
    | error e => exact issueCommand_error hd s
  · obtain ⟨i, hd⟩ := (exists_decode_iff v).mpr hleg
    exact ⟨i, wellFormed_of_decode hd, hd, issueCommand_ok hd s⟩

end Sys2Proof.Machine

namespace Sys2Proof

/-! ### The command words (R70, R72, R76) -/

/-- R70, R76: the OPC field of a command's word is its opcode. -/
@[simp] theorem opcField_encode (i : Instr) : opcField (encode i) = opcodeOf i :=
  BitVec.extractLsb'_append_eq_right

/-- R75: a command's word, zero-extended, is the CMD value of the command. -/
theorem setWidth_encode (i : Instr) : (encode i).setWidth 64 = 0#48 ++ argumentOf i ++ opcodeOf i := by
  apply BitVec.eq_of_toNat_eq
  rw [BitVec.toNat_setWidth_of_le (by decide)]
  simp only [encode, BitVec.toNat_append, BitVec.toNat_ofNat, Nat.zero_mod]

/-- A 32-bit word decodes to a command exactly if it is the word of that command, and the command is well formed. -/
theorem decode_setWidth_eq_ok_iff (w : CmdWord) (i : Instr) :
    decode (w.setWidth 64) = .ok i ↔ i.wellFormed = true ∧ w = encode i := by
  rw [decode_eq_ok_iff, ← setWidth_encode]
  have hinj : w.setWidth 64 = (encode i).setWidth 64 ↔ w = encode i :=
    ⟨fun h => by simpa using congrArg (BitVec.setWidth 32) h, congrArg _⟩
  rw [hinj]

end Sys2Proof

namespace Sys2Proof.Machine

/-- R72, R163: a CMD value that decodes to no command raises CmdError. -/
theorem issueCommand_not_ok {v : Word} (h : ∀ i, decode v ≠ .ok i) (s : State) :
    issueCommand v s = .next (raise .cmd s) := by
  cases hd : decode v with
  | ok i => exact absurd hd (h i)
  | error e => exact issueCommand_error hd s

/-- R71, R74: where one command alone has its opcode's words (it takes no argument), any other word with that opcode
raises CmdError. -/
theorem issueCommand_ne_encode {i : Instr} (honly : ∀ j, opcodeOf j = opcodeOf i → j = i) {w : CmdWord}
    (hopc : opcField w = opcodeOf i) (hne : w ≠ encode i) (s : State) :
    issueCommand (w.setWidth 64) s = .next (raise .cmd s) := by
  refine issueCommand_not_ok (fun j hd => hne ?_) s
  obtain ⟨-, rfl⟩ := (decode_setWidth_eq_ok_iff w j).mp hd
  rw [opcField_encode] at hopc
  rw [honly j hopc]

/-! ### CONFIGURE (R104) -/

/-- R104: latching the same staged configuration again changes nothing. -/
theorem latchConfiguration_idem (s : State) : latchConfiguration (latchConfiguration s) = latchConfiguration s := rfl

/-- R100: validity with the three fields of a configuration tested bit by bit together. -/
theorem valid_iff_fields (c : Cfg) :
    c.valid = true ↔ 8 ≤ c.width.toNat ∧ c.width.toNat ≤ 64 ∧ ∀ i : Nat, c.width.toNat ≤ i →
      c.poly.getLsbD i = false ∧ c.init.getLsbD i = false ∧ c.xorout.getLsbD i = false := by
  simp only [valid_iff, imp_and, forall_and]

/-- R100: a configuration is not valid exactly if its width is not legal or a bit of another field is set from the
width on. -/
theorem valid_eq_false_iff (c : Cfg) :
    c.valid = false ↔ c.width.toNat < 8 ∨ 64 < c.width.toNat ∨ ∃ i : Nat, c.width.toNat ≤ i ∧
      (c.poly.getLsbD i = true ∨ c.init.getLsbD i = true ∨ c.xorout.getLsbD i = true) := by
  rw [← Bool.not_eq_true, valid_iff_fields]
  simp only [not_and_or, not_forall, not_le, exists_prop, Bool.not_eq_false]

/-- Settles O8: the premise is validity, and then CONFIGURE latches, which is idempotent; its negation is not valid, and
then CONFIGURE raises CfgError; CONFIGURE is the one command with opcode 1. -/
theorem configureLatchesAndBuildsTheTable : Obligations.ConfigureLatchesAndBuildsTheTable := by
  refine ⟨(decode_eq_ok_iff ..).mpr ⟨rfl, rfl⟩, fun s hlo hhi hfields => ?_, fun s hbad => ?_, fun w s hopc hne => ?_⟩
  · have hvalid : s.staged.valid = true := (valid_iff_fields _).mpr ⟨hlo, hhi, hfields⟩
    refine ⟨buildTable s.staged, tableAt_buildTable _, exec_configure_valid hvalid, fun t ht => ?_⟩
    rw [exec_configure_valid hvalid] at ht
    cases ht
    rw [exec_configure_valid (s := latchConfiguration s) hvalid, latchConfiguration_idem]
  · exact exec_configure_invalid ((valid_eq_false_iff _).mpr hbad)
  · have honly : ∀ j, opcodeOf j = opcodeOf .configure → j = .configure := by
      intro j
      cases j <;> simp [opcodeOf]
    exact issueCommand_ne_encode honly hopc hne s

/-! ### The division loop on natural numbers (R102) -/

/-- The mask keeps a number modulo `2 ^ w` (R11). -/
theorem toNat_and_mask (x : Word) (w : Nat) : (x &&& mask w).toNat = x.toNat % 2 ^ w := by
  apply Nat.eq_of_testBit_eq
  intro i
  rw [Nat.testBit_mod_two_pow]
  change (x &&& mask w).getLsbD i = (decide (i < w) && x.getLsbD i)
  by_cases hi : i < 64
  · simp [hi, Bool.and_comm]
  · simp [BitVec.getLsbD_of_ge, Nat.le_of_not_lt hi]

/-- A shift left in a word, masked, is a product modulo `2 ^ w`: what the word drops is dropped by the mask too. -/
theorem toNat_shiftLeft_and_mask (x : Word) (k : Nat) {w : Nat} (hw : w ≤ 64) :
    ((x <<< k) &&& mask w).toNat = x.toNat * 2 ^ k % 2 ^ w := by
  rw [toNat_and_mask, BitVec.toNat_shiftLeft, Nat.shiftLeft_eq, Nat.mod_mod_of_dvd _ (Nat.pow_dvd_pow 2 hw)]

/-- One turn of the loop of R102 on a number below `2 ^ w`: double it, XOR `p` in if bit `w - 1` was 1, reduce. -/
def divisionTurn (w p r : Nat) : Nat :=
  if r.testBit (w - 1) then ((2 * r) ^^^ p) % 2 ^ w else (2 * r) % 2 ^ w

/-- A turn of the block's loop is that turn on the register's number. -/
theorem toNat_divideBit {w : Nat} (hw : w ≤ 64) (poly r : Word) :
    (divideBit w poly r).toNat = divisionTurn w poly.toNat r.toNat := by
  have hdouble : ((r <<< 1) &&& mask w).toNat = 2 * r.toNat % 2 ^ w := by
    rw [toNat_shiftLeft_and_mask r 1 hw, Nat.pow_one, Nat.mul_comm]
  unfold divideBit divisionTurn
  rw [← BitVec.testBit_toNat]
  split
  · rw [xor_and, BitVec.toNat_xor, hdouble, toNat_and_mask, Nat.xor_mod_two_pow]
  · exact hdouble

/-- The block's loop is the iteration of that turn. -/
theorem toNat_divideBits {w : Nat} (hw : w ≤ 64) (poly : Word) (k : Nat) (r : Word) :
    (divideBits w poly k r).toNat = (divisionTurn w poly.toNat)^[k] r.toNat := by
  induction k generalizing r with
  | zero => rfl
  | succ k ih => rw [divideBits, ih, toNat_divideBit hw, Function.iterate_succ_apply]

/-- R102: the register after a byte has been divided, as a number. -/
theorem toNat_divideByte {w : Nat} (hw : w ≤ 64) (poly : Word) (x : Byte) :
    (divideBits w poly 8 ((x.setWidth 64 <<< (w - 8)) &&& mask w)).toNat =
      (divisionTurn w poly.toNat)^[8] (x.toNat * 2 ^ (w - 8) % 2 ^ w) := by
  rw [toNat_divideBits hw, toNat_shiftLeft_and_mask _ _ hw,
    BitVec.toNat_setWidth_of_le (by decide : 8 ≤ 64)]

/-- R140: reflecting a byte as an 8-bit value reverses it. -/
theorem reflect_byte (b : Byte) : reflect (b.setWidth 64) 8 = b.reverse.setWidth 64 := by
  apply BitVec.eq_of_getLsbD_eq
  intro i hi
  rw [getLsbD_reflect _ _ _ (by decide), BitVec.getLsbD_setWidth, BitVec.getLsbD_setWidth, BitVec.getLsbD_reverse,
    BitVec.getMsbD_eq_getLsbD]
  by_cases h : i < 8
  · simp [h, hi]; omega
  · simp [h]

/-- Settles O40: the register after the byte is the number that eight turns give, below `2 ^ w`; with REFIN = 1 the byte
goes in, and the register comes out, reversed. -/
theorem tableEntryIsTheDivisionLoop : Obligations.TableEntryIsTheDivisionLoop := by
  intro c b _ hw w x turn i
  have hturn : turn = divisionTurn w c.poly.toNat := rfl
  rw [hturn]
  cases hr : c.refin with
  | false =>
    have hx : x = b.toNat := by simp [x, hr]
    rw [tableEntry_plain hr, hx, ← toNat_divideByte hw, BitVec.testBit_toNat]
    have hlt := divideBits_lt c.poly 8 (and_mask_lt (b.setWidth 64 <<< (w - 8)) w)
    by_cases hi : i < w
    · simp [hi, w]
    · rw [getLsbD_of_lt hlt (Nat.le_of_not_lt hi), decide_eq_false hi, Bool.false_and]
  | true =>
    have hx : x = b.reverse.toNat := by simp [x, hr]
    rw [tableEntry_reflected hr, reflect_byte, getLsbD_reflect _ _ _ hw, hx, ← toNat_divideByte hw,
      BitVec.testBit_toNat]
    simp [w]

/-! ### RDTAB (R106) -/

/-- R103 (b): the entry at index 0 is 0. -/
@[simp] theorem tableEntry_zero (c : Cfg) : tableEntry c 0#8 = 0#64 := by
  cases hr : c.refin with
  | false => simp [tableEntry_plain hr]
  | true => simp [tableEntry_reflected hr]

/-- R102: an entry fits in the width. -/
theorem tableEntry_lt {c : Cfg} (hw : c.width.toNat ≤ 64) (b : Byte) :
    (tableEntry c b).toNat < 2 ^ c.width.toNat := by
  cases hr : c.refin with
  | false => rw [tableEntry_plain hr]; exact divideBits_lt _ _ (and_mask_lt _ _)
  | true => rw [tableEntry_reflected hr]; exact reflect_lt _ hw

/-- R106: with READY = 1 RDTAB writes the entry to RESULT. -/
theorem exec_rdtab_of_ready {s : State} (h : s.status.ready = true) (b : Byte) :
    exec (.rdtab b) s = .next { s with result := tableAt s.table b } := by
  rw [exec_rdtab, requireReady_of_ready h]

/-- R74, R163: a word with a reserved bit set raises CmdError. -/
theorem issueCommand_reserved {w : CmdWord} (h : rsvField w ≠ 0#16) (s : State) :
    issueCommand (w.setWidth 64) s = .next (raise .cmd s) :=
  issueCommand_error (by rw [decode_setWidth, if_pos h]) s

/-- Settles O7: RDTAB is the READY gate before one read of TABLE, and R36 says what TABLE holds while READY = 1. -/
theorem rdtabReadsOneEntry : Obligations.RdtabReadsOneEntry := by
  refine ⟨fun b => (decode_eq_ok_iff ..).mpr ⟨rfl, rfl⟩, fun b s h => exec_rdtab_of_ready h b, fun b s h hinv => ?_,
    fun b s h => ?_, fun w s _ hrsv => issueCommand_reserved hrsv s⟩
  · obtain ⟨hvalid, htab, -⟩ := hinv h
    obtain ⟨-, hw, -⟩ := (valid_iff _).mp hvalid
    refine ⟨_, exec_rdtab_of_ready h b, htab b, fun i hi => ?_, fun hb => ?_⟩
    · change (tableAt s.table b).getLsbD i = false
      rw [htab]
      exact getLsbD_of_lt (tableEntry_lt hw b) hi
    · change tableAt s.table b = 0#64
      rw [htab, hb, tableEntry_zero]
  · rw [exec_rdtab, requireReady_of_not_ready h]
    rfl

end Sys2Proof.Machine

namespace Sys2Proof

/-- R70, R72: a CMD value with nothing above bit 15 decodes by its ARG and OPC fields. -/
theorem decode_append (arg opc : Byte) : decode (0#48 ++ arg ++ opc) = decodeFields opc arg := by
  obtain ⟨hup, hrsv, hopc, harg⟩ := fields_append arg opc
  rw [decode_eq_fields, if_neg (not_not.mpr hup), if_neg (not_not.mpr hrsv), hopc, harg]

/-- R73: FEED takes 0 to 8. -/
@[simp] theorem wellFormed_feed_iff (n : Byte) : (Instr.feed n).wellFormed = true ↔ n.toNat ≤ 8 := by
  simp [Instr.wellFormed]

/-- R71, R73: a command that takes no argument is the only one with its opcode. -/
theorem eq_of_opcodeOf_eq {i j : Instr} (hi : i ∈ [Instr.nop, .configure, .start, .final, .clrerr])
    (h : opcodeOf j = opcodeOf i) : j = i := by
  simp only [List.mem_cons, List.not_mem_nil, or_false] at hi
  rcases hi with rfl | rfl | rfl | rfl | rfl <;> cases j <;> simp [opcodeOf] at h ⊢

end Sys2Proof

namespace Sys2Proof.Machine

/-! ### FEED (R126) -/

/-- R126: with READY = 1 FEED folds the step over the lanes of DIN into ACC. -/
theorem exec_feed_of_ready {n : Byte} {s : State} (hn : n.toNat ≤ 8) (hr : s.status.ready = true) :
    exec (.feed n) s = .next { s with
      acc := (List.range n.toNat).foldl (fun a k => crcStep s.act s.table a (dinLane s.din k)) s.acc } := by
  rw [exec_feed_legal hn, requireReady_of_ready hr, feedLanes_eq_foldl, List.foldl_map]

/-- R28: a byte written to lane 0 of DIN is read back from it. -/
@[simp] theorem dinLane_zero_setWidth (b : Byte) : dinLane (b.setWidth 64) 0 = b := by
  apply BitVec.eq_of_toNat_eq
  simp [dinLane, BitVec.extractLsb'_toNat]
  omega

/-- R126: FEED 1 with a byte in lane 0 of DIN is one step on that byte. -/
theorem exec_feed_one {s : State} (hr : s.status.ready = true) (b : Byte) (a : Word) :
    exec (.feed 1#8) { s with din := b.setWidth 64, acc := a } =
      .next { s with din := b.setWidth 64, acc := crcStep s.act s.table a b } := by
  have h := exec_feed_of_ready (n := 1#8) (s := { s with din := b.setWidth 64, acc := a }) (by decide) hr
  simpa using h

/-- R74, R163: FEED with an argument above 8 raises CmdError. -/
theorem issueCommand_feed_illegal {n : Byte} (hn : 8 < n.toNat) (s : State) :
    issueCommand (0#48 ++ n ++ 0x03#8) s = .next (raise .cmd s) := by
  refine issueCommand_not_ok (fun i hd => ?_) s
  rw [decode_append] at hd
  obtain ⟨hwf, -⟩ := (withArg_eq_ok_iff (.feed n) i).mp hd
  exact absurd ((wellFormed_feed_iff n).mp hwf) (by omega)

/-- Settles O4: FEED is the READY gate before the fold over the lanes; the fold of FEED 8 and that of eight FEED 1 agree
step by step, as each FEED 1 is one step on the byte in lane 0. -/
theorem feedConsumesTheLanesInOrder : Obligations.FeedConsumesTheLanesInOrder := by
  refine ⟨fun n hn => (decode_eq_ok_iff ..).mpr ⟨(wellFormed_feed_iff n).mpr hn, rfl⟩,
    fun n s hn hr => exec_feed_of_ready hn hr, fun s hr => exec_feed_of_ready (by decide) hr,
    fun n s hn hr => ?_, fun n s hn => issueCommand_feed_illegal hn s, fun s hr => ?_⟩
  · rw [exec_feed_legal hn, requireReady_of_not_ready hr]
    rfl
  · refine ⟨_, exec_feed_of_ready (by decide) hr, ?_⟩
    simp only [exec_feed_one hr]
    rfl

/-! ### The accumulation step bit by bit (R120) -/

/-- R120 with REFIN = 0: the index is the byte of ACC from bit width - 8 up XOR the data byte, and ACC shifts left. -/
theorem getLsbD_crcStep_plain {c : Cfg} (h : c.refin = false) (t : Vector Word 256) (acc : Word) (d : Byte) {i : Nat}
    (hi : i < 64) :
    (crcStep c t acc d).getLsbD i = (decide (i < c.width.toNat) &&
      ((tableAt t ((acc >>> (c.width.toNat - 8)).extractLsb' 0 8 ^^^ d)).getLsbD i ^^
        (decide (8 ≤ i) && acc.getLsbD (i - 8)))) := by
  have hshift : (acc <<< 8).getLsbD i = (decide (8 ≤ i) && acc.getLsbD (i - 8)) := by
    rw [BitVec.getLsbD_shiftLeft, decide_eq_true hi, Bool.true_and, ← decide_not]
    simp only [Nat.not_lt]
  simp only [crcStep, h, Bool.false_eq_true, if_false, BitVec.getLsbD_and, BitVec.getLsbD_xor, hshift, getLsbD_mask,
    decide_eq_true hi, Bool.and_true]
  rw [Bool.and_comm, Bool.xor_comm]

/-- R120 with REFIN = 1: the index is the low byte of ACC XOR the data byte, and ACC shifts right. -/
theorem getLsbD_crcStep_reflected {c : Cfg} (h : c.refin = true) (t : Vector Word 256) (acc : Word) (d : Byte) {i : Nat}
    (hi : i < 64) :
    (crcStep c t acc d).getLsbD i = (decide (i < c.width.toNat) &&
      ((tableAt t (acc.extractLsb' 0 8 ^^^ d)).getLsbD i ^^ acc.getLsbD (i + 8))) := by
  have hshift : (acc >>> 8).getLsbD i = acc.getLsbD (i + 8) := by
    rw [BitVec.getLsbD_ushiftRight, Nat.add_comm]
  simp only [crcStep, h, if_true, BitVec.getLsbD_and, BitVec.getLsbD_xor, hshift, getLsbD_mask,
    decide_eq_true hi, Bool.and_true]
  rw [Bool.and_comm, Bool.xor_comm]

/-- The byte of a register from bit `k` up, as a number. -/
theorem toNat_byteFrom (x : Word) (k : Nat) : ((x >>> k).extractLsb' 0 8).toNat = x.toNat / 2 ^ k % 256 := by
  simp [BitVec.extractLsb'_toNat, Nat.shiftRight_eq_div_pow]

/-- Settles O39: the index given as a number is the byte that the step looks up, in either direction. -/
theorem accumulationStepBitByBit : Obligations.AccumulationStepBitByBit := by
  intro c t acc d idx _ _ w hidx i hi
  cases hr : c.refin with
  | false =>
    have hbyte : idx = (acc >>> (w - 8)).extractLsb' 0 8 ^^^ d := by
      apply BitVec.eq_of_toNat_eq
      rw [hidx, BitVec.toNat_xor, toNat_byteFrom]
      simp [hr]
    rw [hbyte, getLsbD_crcStep_plain hr t acc d hi]
    simp [w]
  | true =>
    have hbyte : idx = acc.extractLsb' 0 8 ^^^ d := by
      apply BitVec.eq_of_toNat_eq
      rw [hidx, BitVec.toNat_xor, BitVec.extractLsb'_toNat]
      simp [hr]
    rw [hbyte, getLsbD_crcStep_reflected hr t acc d hi]
    simp [w]

/-! ### START (R125) -/

/-- Settles O3: START is the READY gate before one load of ACC, and the one command with opcode 2. -/
theorem startLoadsTheInitialValue : Obligations.StartLoadsTheInitialValue := by
  refine ⟨(decode_eq_ok_iff ..).mpr ⟨rfl, rfl⟩, fun s hr => ?_, fun s hr => ?_, fun w s hopc hne =>
    issueCommand_ne_encode (i := .start) (fun _ => eq_of_opcodeOf_eq (by decide)) hopc hne s⟩
  · rw [exec_start, requireReady_of_ready hr]
  · rw [exec_start, requireReady_of_not_ready hr]
    rfl

/-! ### FINAL (R122, R127) -/

/-- R122: finalization bit by bit. -/
theorem getLsbD_finalize (c : Cfg) (acc : Word) {i : Nat} (hi : i < 64) :
    (finalize c acc).getLsbD i = (decide (i < c.width.toNat) &&
      ((acc.getLsbD i ^^ c.xorout.getLsbD i) ^^ !c.refout)) := by
  rw [finalize, BitVec.getLsbD_and, getLsbD_mask, decide_eq_true hi, Bool.and_true, Bool.and_comm]
  cases c.refout <;> simp [hi]

/-- Settles O5: FINAL is the READY gate before one write of RESULT, and the one command with opcode 4. -/
theorem finalWritesTheChecksum : Obligations.FinalWritesTheChecksum := by
  refine ⟨(decode_eq_ok_iff ..).mpr ⟨rfl, rfl⟩, fun s hr => ?_, fun s hr => ?_, fun w s hopc hne =>
    issueCommand_ne_encode (i := .final) (fun _ => eq_of_opcodeOf_eq (by decide)) hopc hne s⟩
  · refine ⟨finalize s.act s.acc, ?_, fun i hi => getLsbD_finalize s.act s.acc hi⟩
    rw [exec_final, requireReady_of_ready hr]
  · rw [exec_final, requireReady_of_not_ready hr]
    rfl

end Sys2Proof.Machine

namespace Sys2Proof

/-- R73: REFLECT takes 1 to 64. -/
@[simp] theorem wellFormed_reflect_iff (n : Byte) :
    (Instr.reflect n).wellFormed = true ↔ 1 ≤ n.toNat ∧ n.toNat ≤ 64 := by
  simp [Instr.wellFormed]

/-- R72, R73: on the fields of a command only the test of its argument is left; ARG is 0 where it takes none. -/
theorem decodeFields_eq_withArg (i : Instr) : decodeFields (opcodeOf i) (argumentOf i) = withArg i := by
  cases i <;> rfl

/-- R74: the word of a command whose argument is not legal is rejected for its argument. -/
theorem decode_illegalArg {i : Instr} (h : ¬ i.wellFormed = true) :
    decode (0#48 ++ argumentOf i ++ opcodeOf i) = .error .illegalArg := by
  rw [decode_append, decodeFields_eq_withArg, withArg, if_neg h]

end Sys2Proof

namespace Sys2Proof.Machine

/-! ### REFLECT (R140, R143) -/

/-- Settles O6: a legal argument makes a well-formed word, and its REFLECT, which tests no READY, writes the reflection
of DIN bit by bit; an illegal one is rejected by the decoder. -/
theorem reflectReversesTheLowBitsOfDin : Obligations.ReflectReversesTheLowBitsOfDin := by
  refine ⟨fun n hlo hhi => (decode_eq_ok_iff ..).mpr ⟨(wellFormed_reflect_iff n).mpr ⟨hlo, hhi⟩, rfl⟩,
    fun n s hlo hhi => ⟨reflect s.din n.toNat, exec_reflect_legal hlo hhi s, fun i _ => getLsbD_reflect _ _ i hhi⟩,
    fun n s hill => ?_⟩
  have hwf : ¬ (Instr.reflect n).wellFormed = true := by
    rw [wellFormed_reflect_iff]
    omega
  exact issueCommand_error (decode_illegalArg hwf) s

end Sys2Proof.Machine

namespace Sys2Proof.Machine

/-! ### NOP and CLRERR (R150, R151) -/

/-- Settles O1: NOP is the identity, with no test of READY, and the one command with opcode 0. -/
theorem nopChangesNothing : Obligations.NopChangesNothing := by
  have honly : ∀ j, opcodeOf j = opcodeOf .nop → j = .nop := fun _ => eq_of_opcodeOf_eq (by decide)
  exact ⟨(decode_eq_ok_iff ..).mpr ⟨rfl, rfl⟩, exec_nop, fun w s hopc hne => issueCommand_ne_encode honly hopc hne s⟩

/-- Settles O2: CLRERR replaces STATUS by its cleared form, with no test of READY, and is the one command with
opcode 7. -/
theorem clrerrClearsTheStickyBits : Obligations.ClrerrClearsTheStickyBits := by
  have honly : ∀ j, opcodeOf j = opcodeOf .clrerr → j = .clrerr := fun _ => eq_of_opcodeOf_eq (by decide)
  exact ⟨(decode_eq_ok_iff ..).mpr ⟨rfl, rfl⟩, exec_clrerr, fun w s hopc hne => issueCommand_ne_encode honly hopc hne s⟩

end Sys2Proof.Machine

namespace Sys2Proof.Machine

/-! ### The errors of a command (R160 to R163, R165) -/

/-- The commands that begin with the test of READY (R162). -/
def NeedsReady (i : Instr) : Prop :=
  i = .start ∨ (∃ n, i = .feed n) ∨ i = .final ∨ ∃ b, i = .rdtab b

/-- No error bit of `g` is set that was not set in `f`. -/
def NoNewError (f g : Status) : Prop :=
  (g.errCfg = true → f.errCfg = true) ∧ (g.errCmd = true → f.errCmd = true) ∧
    (g.errState = true → f.errState = true)

/-- Where the flags stay as they are, no error is new. -/
theorem noNewError_refl (f : Status) : NoNewError f f := ⟨id, id, id⟩

/-- R104: a CONFIGURE that passes validation sets READY and no error bit. -/
theorem noNewError_configured (f : Status) : NoNewError f f.configured := ⟨id, id, id⟩

/-- R151: CLRERR sets no error bit. -/
theorem noNewError_cleared (f : Status) : NoNewError f f.cleared := by simp [NoNewError]

/-- R162: with READY = 0 a well-formed command that needs READY raises StateError. -/
theorem exec_of_needsReady {i : Instr} {s : State} (hready : s.status.ready = false) (hwf : i.wellFormed = true)
    (hi : NeedsReady i) : exec i s = .next (raise .state s) := by
  rcases hi with rfl | ⟨n, rfl⟩ | rfl | ⟨b, rfl⟩
  · rw [exec_start, requireReady_of_not_ready hready]
  · rw [exec_feed_legal ((wellFormed_feed_iff n).mp hwf), requireReady_of_not_ready hready]
  · rw [exec_final, requireReady_of_not_ready hready]
  · rw [exec_rdtab, requireReady_of_not_ready hready]

/-- R161 to R163, R165: a command raises no error, or exactly one, for its own cause. -/
theorem exec_errors {i : Instr} {s t : State} (h : exec i s = .next t) :
    NoNewError s.status t.status ∨
    (t.status = s.status.raised .cfg ∧ i = .configure ∧ s.staged.valid = false) ∨
    (t.status = s.status.raised .state ∧ s.status.ready = false ∧ NeedsReady i) ∨
    (t.status = s.status.raised .cmd ∧ i.wellFormed = false) := by
  rcases exec_cases h with ⟨-, rfl⟩ | ⟨-, rfl⟩ | ⟨-, -, rfl⟩ | ⟨rfl, hv, rfl⟩ | ⟨-, hi⟩ | ⟨hready, rfl, hi⟩ |
    ⟨_, -, -, -, rfl⟩ | ⟨hwf, rfl, -⟩
  · exact .inl (noNewError_refl _)
  · exact .inl (noNewError_cleared _)
  · exact .inl (noNewError_configured _)
  · exact .inr (.inl ⟨rfl, rfl, hv⟩)
  · rcases hi with ⟨-, rfl⟩ | ⟨_, -, -, rfl⟩ | ⟨-, rfl⟩ | ⟨_, -, rfl⟩ <;> exact .inl (noNewError_refl _)
  · have hneeds : NeedsReady i := hi.imp_right (.imp_left fun ⟨n, hn, _⟩ => ⟨n, hn⟩)
    exact .inr (.inr (.inl ⟨rfl, hready, hneeds⟩))
  · exact .inl (noNewError_refl _)
  · exact .inr (.inr (.inr ⟨rfl, hwf⟩))

/-- R162: a command sets ERR_STATE only with READY = 0, and only if it needs READY. -/
theorem exec_sets_errState {i : Instr} {s t : State} (h : exec i s = .next t) (ht : t.status.errState = true) :
    s.status.errState = true ∨ (s.status.ready = false ∧ NeedsReady i) := by
  rcases exec_errors h with ⟨-, -, hstate⟩ | ⟨hcfg, -, -⟩ | ⟨-, hready, hi⟩ | ⟨hcmd, -⟩
  · exact .inl (hstate ht)
  · exact .inl (by simpa [hcfg] using ht)
  · exact .inr ⟨hready, hi⟩
  · exact .inl (by simpa [hcmd] using ht)

/-- Settles O28: the gate raises StateError, nothing but the gate does, and READY is 0 at reset and after a CfgError. -/
theorem stateErrorOnlyWithoutReady : Obligations.StateErrorOnlyWithoutReady := by
  refine ⟨fun i s hready hwf hi => exec_of_needsReady hready hwf hi, fun i s t hready h ht => ?_,
    fun i s t hi h ht => ?_, rfl, fun s t h hv => ?_⟩
  · refine (exec_sets_errState h ht).resolve_right fun ⟨hnot, _⟩ => ?_
    simp [hready] at hnot
  · refine (exec_sets_errState h ht).resolve_right fun ⟨_, hneeds⟩ => ?_
    rcases hi with rfl | rfl | ⟨n, rfl⟩ | rfl <;> simp [NeedsReady] at hneeds
  · rw [exec_configure_invalid hv] at h
    cases h
    rfl

/-- R161: a configuration is not valid exactly if its width is not legal or one of the other three fields has a bit
set from the width on, each field on its own. -/
theorem valid_eq_false_iff_each (c : Cfg) :
    c.valid = false ↔ c.width.toNat < 8 ∨ 64 < c.width.toNat ∨
      (∃ i, c.width.toNat ≤ i ∧ c.poly.getLsbD i = true) ∨ (∃ i, c.width.toNat ≤ i ∧ c.init.getLsbD i = true) ∨
      ∃ i, c.width.toNat ≤ i ∧ c.xorout.getLsbD i = true := by
  simp only [valid_eq_false_iff, and_or_left, exists_or]

/-- Settles O29: the listed causes are exactly that the staged configuration is not valid, which is what CONFIGURE
tests. -/
theorem cfgErrorExactlyOnInvalidConfigurations : Obligations.CfgErrorExactlyOnInvalidConfigurations := by
  intro s w bad
  have hbad : s.staged.valid = false ↔ bad := valid_eq_false_iff_each s.staged
  refine ⟨fun h => exec_configure_invalid (hbad.mpr h), fun h => ?_⟩
  have hvalid : s.staged.valid = true := by rwa [← hbad, Bool.not_eq_false] at h
  exact ⟨_, exec_configure_valid hvalid, rfl⟩

/-! ### The errors of a step (R164, R165) -/

/-- An event that writes no value to CMD issues no command. -/
theorem nextCommand_eq_none {s : State} (h : nextCommandValue s = none) : nextCommand s = none := by
  simp [nextCommand, h]

/-- R72, R163: a step that writes a malformed value to CMD raises CmdError. -/
theorem step_malformed_status {s t : State} (h : step s = .next t) (hv : nextCommandValue s ≠ none)
    (hc : nextCommand s = none) : t.status = s.status.raised .cmd := by
  rcases step_status h with ⟨-, -, -, hnone⟩ | ⟨-, hnone, -⟩ | ⟨-, _, -, -, hcmd, -⟩ | ⟨-, i, _, -, hi, -⟩
  · exact absurd hnone hv
  · exact absurd hnone hv
  · exact hcmd
  · simp [hc] at hi

/-- R72: a step that issues a command runs it, well formed, on a state with the same STATUS, RESULT and staged
configuration. -/
theorem step_of_nextCommand {s t : State} {i : Instr} (h : step s = .next t) (hi : nextCommand s = some i) :
    i.wellFormed = true ∧ ∃ u : State, u.status = s.status ∧ u.result = s.result ∧ u.staged = s.staged ∧
      exec i u = .next t := by
  rcases step_status h with ⟨-, -, -, hnone⟩ | ⟨-, hnone, -⟩ | ⟨-, _, -, hnone, -⟩ |
    ⟨-, j, u, -, hj, hwf, hstatus, hresult, hstaged, hexec⟩
  · simp [nextCommand_eq_none hnone] at hi
  · simp [nextCommand_eq_none hnone] at hi
  · simp [hnone] at hi
  · obtain rfl : j = i := Option.some.inj (hj.symm.trans hi)
    exact ⟨hwf, u, hstatus, hresult, hstaged, hexec⟩

/-- R165: a step raises no error, or exactly one. -/
theorem step_errors {s t : State} (h : step s = .next t) :
    NoNewError s.status t.status ∨ ∃ k, t.status = s.status.raised k := by
  rcases step_status h with ⟨-, hzero, -⟩ | ⟨-, -, hkept, -⟩ | ⟨-, _, -, -, hcmd, -⟩ |
    ⟨-, i, u, -, -, -, hstatus, -, -, hexec⟩
  · exact .inl (by simp [hzero, NoNewError, Status.zero])
  · exact .inl (hkept ▸ noNewError_refl _)
  · exact .inr ⟨_, hcmd⟩
  · rw [← hstatus]
    rcases exec_errors hexec with hnone | ⟨hk, -⟩ | ⟨hk, -⟩ | ⟨hk, -⟩
    · exact .inl hnone
    all_goals exact .inr ⟨_, hk⟩

/-- Settles O30: a step raises at most one error, and each error sets one bit; a bus error is before any command, a
malformed word before the test of READY. -/
theorem atMostOneErrorAtATime : Obligations.AtMostOneErrorAtATime := by
  refine ⟨fun s t a rest hp hb h => ?_, fun s t h => ?_, fun s t h hv hc => step_malformed_status h hv hc,
    fun s t h hi hready => ?_⟩
  · rw [step_busError hp hb] at h
    cases h
    rfl
  · rcases step_errors h with ⟨hcfg, hcmd, -⟩ | ⟨k, hk⟩
    · refine ⟨?_, ?_, ?_⟩ <;> rintro ⟨hwas, hset, -⟩
      · simp [hcfg hset] at hwas
      · simp [hcfg hset] at hwas
      · simp [hcmd hset] at hwas
    · rw [hk]
      cases k <;> simp +contextual
  · obtain ⟨hwf, u, hu, -, -, hexec⟩ := step_of_nextCommand h hi
    rw [exec_of_needsReady (by rw [hu, hready]) hwf (.inl rfl)] at hexec
    cases hexec
    simp [hu]

end Sys2Proof.Machine

namespace Sys2Proof.Machine

/-! ### What the host can tell apart (R33, R34, R35, R37) -/

/-- Two outcomes that the host cannot tell apart: next states that look the same. -/
inductive SameOutcome : Result → Result → Prop where
  | next {s t : State} (h : SameToHost s t) : SameOutcome (.next s) (.next t)

/-- What the relation says of two next states. -/
theorem SameOutcome.sameToHost {s t : State} (h : SameOutcome (.next s) (.next t)) : SameToHost s t := by
  cases h
  assumption

theorem SameToHost.refl (s : State) : SameToHost s s :=
  ⟨rfl, rfl, rfl, rfl, rfl, rfl, rfl, fun _ => rfl, fun _ => rfl, fun _ => rfl⟩

/-- With READY = 1 nothing is hidden: two states that look the same are the same. -/
theorem SameToHost.eq_of_ready {s t : State} (h : SameToHost s t) (hr : s.status.ready = true) : s = t := by
  obtain ⟨hstaged, hdin, hstatus, hresult, hpending, hresponses, hdraws, hact, htable, hacc⟩ := h
  cases s
  cases t
  simp_all

/-- Two states with READY = 0 look the same as soon as the window and the port agree. -/
theorem sameToHost_of_not_ready {s t : State} (hr : s.status.ready = false) (hstaged : s.staged = t.staged)
    (hdin : s.din = t.din) (hstatus : s.status = t.status) (hresult : s.result = t.result)
    (hpending : s.pending = t.pending) (hresponses : s.responses = t.responses) (hdraws : s.draws = t.draws) :
    SameToHost s t :=
  ⟨hstaged, hdin, hstatus, hresult, hpending, hresponses, hdraws,
    by simp [hr], by simp [hr], by simp [hr]⟩

/-- R54: the registers of the window look the same. -/
theorem SameToHost.readReg {s t : State} (h : SameToHost s t) (r : Reg) : readReg r s = readReg r t := by
  cases r <;> simp only [Machine.readReg, h.staged, h.din, h.status, h.result]

/-- R54, R56: so does every answer of the port. -/
theorem SameToHost.completion {s t : State} (h : SameToHost s t) (a : Access) : completion a s = completion a t := by
  have hreg (off : Byte) : registerOf off s = registerOf off t := by
    unfold registerOf
    cases regAt off with
    | none => rfl
    | some r => exact h.readReg r
  cases a <;> simp only [Machine.completion, readData, hreg]

/-- Answering, and taking an event off the port, keeps two states alike. -/
theorem SameToHost.respond {s t : State} (h : SameToHost s t) (r : Response) :
    SameToHost (respond r s) (respond r t) :=
  { h with responses := congrArg (r :: ·) h.responses }

theorem SameToHost.with_pending {s t : State} (h : SameToHost s t) (rest : List Event) :
    SameToHost { s with pending := rest } { t with pending := rest } :=
  { h with pending := rfl }

/-- R55: a store keeps two states alike. -/
theorem SameToHost.writeReg {s t : State} (h : SameToHost s t) (r : Reg) (v : Word) :
    SameToHost (writeReg r v s) (writeReg r v t) := by
  have hs := h.staged
  cases r with
  | cfgWidth | cfgCtrl | cfgPoly | cfgInit | cfgXorout => exact { h with staged := by simp [Machine.writeReg, hs] }
  | din => exact { h with din := rfl }
  | cmd | status | result => exact h

/-- R180: after reset two states whose ports are alike are alike; whatever TABLE held is gone. -/
theorem SameToHost.applyReset {s t : State} (h : SameToHost s t) : SameToHost (applyReset s) (applyReset t) :=
  sameToHost_of_not_ready rfl rfl rfl rfl rfl h.pending h.responses h.draws

/-- R160: raising an error sets no READY, so it keeps two states alike. -/
theorem SameToHost.raise {s t : State} (h : SameToHost s t) (k : ErrorKind) :
    SameToHost (raise k s) (raise k t) := by
  have hstatus : s.status.raised k = t.status.raised k := by rw [h.status]
  cases k with
  | cfg => exact sameToHost_of_not_ready rfl h.staged h.din hstatus h.result h.pending h.responses h.draws
  | cmd | state => exact { h with status := hstatus }

/-- R104: CONFIGURE overwrites all that was hidden with what the host has staged. -/
theorem SameToHost.latch {s t : State} (h : SameToHost s t) :
    SameToHost (latchConfiguration s) (latchConfiguration t) := by
  have hstaged := h.staged
  exact ⟨hstaged, h.din, congrArg Status.configured h.status, h.result, h.pending, h.responses, h.draws,
    fun _ => hstaged, fun _ => congrArg buildTable hstaged, fun _ => congrArg Cfg.init hstaged⟩

/-- R162: behind the READY gate nothing hidden is read, as with READY = 0 the gate raises StateError. -/
theorem SameToHost.requireReady {s t : State} (h : SameToHost s t) (f : State → State) :
    SameToHost (requireReady s (f s)) (requireReady t (f t)) := by
  cases hr : s.status.ready with
  | true =>
    obtain rfl := h.eq_of_ready hr
    exact SameToHost.refl _
  | false =>
    rw [requireReady_of_not_ready hr, requireReady_of_not_ready (h.status ▸ hr)]
    exact h.raise .state

/-- A command keeps two states alike. -/
theorem SameToHost.exec {s t : State} (h : SameToHost s t) (i : Instr) : SameOutcome (exec i s) (exec i t) := by
  cases i with
  | nop => exact SameOutcome.next h
  | clrerr => exact SameOutcome.next { h with status := congrArg Status.cleared h.status }
  | configure =>
    have hstaged := h.staged
    cases hv : s.staged.valid with
    | true =>
      rw [exec_configure_valid hv, exec_configure_valid (hstaged ▸ hv)]
      exact SameOutcome.next h.latch
    | false =>
      rw [exec_configure_invalid hv, exec_configure_invalid (hstaged ▸ hv)]
      exact SameOutcome.next (h.raise .cfg)
  | start => exact SameOutcome.next (h.requireReady fun s => { s with acc := s.act.init })
  | final => exact SameOutcome.next (h.requireReady fun s => { s with result := finalize s.act s.acc })
  | rdtab b => exact SameOutcome.next (h.requireReady fun s => { s with result := tableAt s.table b })
  | feed n =>
    by_cases hn : n.toNat ≤ 8
    · rw [exec_feed_legal hn, exec_feed_legal hn]
      exact SameOutcome.next
        (h.requireReady fun s => { s with acc := feedLanes s.act s.table s.din n.toNat s.acc })
    · rw [exec_feed_illegal (by omega), exec_feed_illegal (by omega)]
      exact SameOutcome.next (h.raise .cmd)
  | reflect n =>
    by_cases hn : 1 ≤ n.toNat ∧ n.toNat ≤ 64
    · rw [exec_reflect_legal hn.1 hn.2, exec_reflect_legal hn.1 hn.2, h.din]
      exact SameOutcome.next { h with result := rfl, din := rfl }
    · rw [exec_reflect_illegal (by omega), exec_reflect_illegal (by omega)]
      exact SameOutcome.next (h.raise .cmd)

/-- A value written to CMD keeps two states alike. -/
theorem SameToHost.issueCommand {s t : State} (h : SameToHost s t) (v : Word) :
    SameOutcome (issueCommand v s) (issueCommand v t) := by
  cases hd : decode v with
  | ok i =>
    rw [issueCommand_ok hd, issueCommand_ok hd]
    exact h.exec i
  | error e =>
    rw [issueCommand_error hd, issueCommand_error hd]
    exact SameOutcome.next (h.raise .cmd)

/-- A legal write keeps two states alike. -/
theorem SameToHost.performWrite {s t : State} (h : SameToHost s t) (off : Byte) (n : Nat) (v : Word) :
    SameOutcome (performWrite off n v s) (performWrite off n v t) := by
  cases hr : regAt off with
  | none => simpa only [Machine.performWrite, hr] using SameOutcome.next h
  | some r =>
    by_cases hc : r = .cmd
    · subst hc
      rw [performWrite_cmd hr, performWrite_cmd hr]
      exact h.issueCommand _
    · rw [performWrite_store hr hc, performWrite_store hr hc, h.readReg r]
      exact SameOutcome.next (h.writeReg r _)

/-- An access keeps two states alike. -/
theorem SameToHost.performAccess {s t : State} (h : SameToHost s t) (a : Access) :
    SameOutcome (performAccess a s) (performAccess a t) := by
  have hanswered := h.respond (Machine.completion a s)
  unfold Machine.performAccess
  rw [← h.completion a]
  cases a.isBusError with
  | true => exact SameOutcome.next hanswered
  | false =>
    cases a with
    | read off n => exact SameOutcome.next hanswered
    | write off n v => exact hanswered.performWrite off n v

/-- R37, R181: a reset that arrives with an access keeps two states alike: the free value is drawn at the same counter,
and the answer is the same. -/
theorem SameToHost.applyResetDuring {s t : State} (h : SameToHost s t) (a : Access) :
    SameToHost (applyResetDuring a s) (applyResetDuring a t) := by
  unfold Machine.applyResetDuring
  rw [h.draws, h.completion a]
  exact { h.applyReset.respond _ with draws := rfl }

/-- One step keeps two states alike. -/
theorem SameToHost.step {s t : State} (h : SameToHost s t) : SameOutcome (step s) (step t) := by
  cases hp : s.pending with
  | nil =>
    rw [step_nil hp, step_nil (h.pending ▸ hp)]
    exact SameOutcome.next h
  | cons e rest =>
    rw [step_cons hp, step_cons (h.pending ▸ hp)]
    have hrest := h.with_pending rest
    cases e with
    | access a => exact hrest.performAccess a
    | reset => exact SameOutcome.next hrest.applyReset
    | resetDuring a => exact SameOutcome.next (hrest.applyResetDuring a)

/-! ### Every step completes (R9, R198) -/

/-- R198: every access completes. -/
theorem performAccess_next (a : Access) (s : State) : ∃ t, performAccess a s = .next t := by
  unfold performAccess
  cases hb : a.isBusError with
  | true => exact ⟨_, rfl⟩
  | false =>
    cases a with
    | read off n => exact ⟨_, rfl⟩
    | write off n v =>
      obtain ⟨t, ht, -⟩ := performWrite_next hb (respond (completion (.write off n v) s) s)
      exact ⟨t, ht⟩

/-- Settles O23: an idle step and a reset answer a next state, and so does every access. -/
theorem everyStepCompletes : Obligations.EveryStepCompletes := by
  intro s
  cases hp : s.pending with
  | nil => exact ⟨s, step_nil hp⟩
  | cons e rest =>
    rw [step_cons hp]
    cases e with
    | access a => exact performAccess_next a _
    | reset | resetDuring a => exact ⟨_, rfl⟩

/-- Settles O24: with nothing at the port a step is idle. -/
theorem nothingChangesWithoutAnEvent : Obligations.NothingChangesWithoutAnEvent :=
  fun _ hp => step_nil hp

/-! ### Runs -/

/-- A run of one step more is a step and the rest of the run, of any machine. -/
theorem core_run_succ (M : Host.Core) {s u : M.State} (h : M.step s = .next u) (k : Nat) :
    M.run (k + 1) s = M.run k u := by
  rw [Host.Core.run, h]

/-- The same of the block. -/
theorem run_succ {s u : State} (h : step s = .next u) (k : Nat) :
    Host.Core.run Sys2Proof.core (k + 1) s = Host.Core.run Sys2Proof.core k u :=
  core_run_succ Sys2Proof.core h k

/-- Settles O37: by induction on the number of steps, as one step keeps two states alike. -/
theorem hiddenStateNeverReachesTheHost : Obligations.HiddenStateNeverReachesTheHost := by
  intro k
  induction k with
  | zero =>
    rintro s t _ _ h ⟨⟩ ⟨⟩
    exact h
  | succ k ih =>
    intro s t s' t' h hs ht
    obtain ⟨u, hu⟩ := everyStepCompletes s
    obtain ⟨w, hw⟩ := everyStepCompletes t
    have huw := h.step
    rw [hu, hw] at huw
    rw [run_succ hu] at hs
    rw [run_succ hw] at ht
    exact ih u w s' t' huw.sameToHost hs ht

end Sys2Proof.Machine

namespace Sys2Proof

/-- Settles O11: the word of a command, zero-extended, is the one value that decodes to it. -/
theorem decodingAnEncodedCommandGivesItBack : Obligations.DecodingAnEncodedCommandGivesItBack :=
  fun i hwf => (decode_setWidth_eq_ok_iff (encode i) i).mpr ⟨hwf, rfl⟩

end Sys2Proof

namespace Sys2Proof.Machine

/-! ### The READY invariant (R36) -/

/-- R33 to R35: with READY = 0 nothing is asked. -/
theorem readyInv_of_not_ready {s : State} (h : s.status.ready = false) : ReadyInv s :=
  fun hr => absurd hr (by simp [h])

/-- The invariant speaks of READY, ACT, TABLE and ACC alone. -/
theorem ReadyInv.congr {s t : State} (hs : ReadyInv s) (hready : t.status.ready = s.status.ready)
    (hact : t.act = s.act) (htable : t.table = s.table) (hacc : t.acc = s.acc) : ReadyInv t := by
  unfold ReadyInv
  rw [hready, hact, htable, hacc]
  exact hs

/-- The invariant is kept by a new ACC that fits in the active width. -/
theorem ReadyInv.with_acc {s : State} (hs : ReadyInv s) {a : Word}
    (ha : s.status.ready = true → a.toNat < 2 ^ s.act.width.toNat) : ReadyInv { s with acc := a } := fun hr => by
  obtain ⟨hvalid, htable, -⟩ := hs hr
  exact ⟨hvalid, htable, ha hr⟩

/-- R26, R100: the initial value of a valid configuration fits in its width. -/
theorem init_lt_of_valid {c : Cfg} (h : c.valid = true) : c.init.toNat < 2 ^ c.width.toNat := by
  obtain ⟨-, -, -, hinit, -⟩ := (valid_iff c).mp h
  exact lt_of_getLsbD hinit

/-- R104: latching a valid configuration establishes the invariant. -/
theorem readyInv_latch {s : State} (h : s.staged.valid = true) : ReadyInv (latchConfiguration s) :=
  fun _ => ⟨h, tableAt_buildTable s.staged, init_lt_of_valid h⟩

/-- R14, R160: raising an error never sets READY, so it keeps the invariant. -/
theorem ReadyInv.raise {s : State} (hs : ReadyInv s) (k : ErrorKind) : ReadyInv (raise k s) := by
  cases k with
  | cfg => exact readyInv_of_not_ready rfl
  | cmd | state => exact hs.congr rfl rfl rfl rfl

/-- R121 (a): FEED keeps ACC within the width. -/
theorem feedLanes_lt (c : Cfg) (t : Vector Word 256) (din : Word) (n : Nat) {acc : Word}
    (h : acc.toNat < 2 ^ c.width.toNat) : (feedLanes c t din n acc).toNat < 2 ^ c.width.toNat := by
  cases n with
  | zero => exact h
  | succ n => exact crcStep_lt ..

/-- Every command keeps the invariant. -/
theorem exec_keeps_readyInv {i : Instr} {s t : State} (hs : ReadyInv s) (h : exec i s = .next t) : ReadyInv t := by
  rcases exec_cases h with ⟨-, rfl⟩ | ⟨-, rfl⟩ | ⟨-, hv, rfl⟩ | ⟨-, -, rfl⟩ |
    ⟨-, ⟨-, rfl⟩ | ⟨_, -, -, rfl⟩ | ⟨-, rfl⟩ | ⟨_, -, rfl⟩⟩ | ⟨-, rfl, -⟩ | ⟨_, -, -, -, rfl⟩ | ⟨-, rfl, -⟩
  · exact hs
  · exact hs.congr rfl rfl rfl rfl
  · exact readyInv_latch hv
  · exact hs.raise _
  · exact hs.with_acc fun hr => init_lt_of_valid (hs hr).1
  · refine hs.with_acc fun hr => ?_
    obtain ⟨-, -, hacc⟩ := hs hr
    exact feedLanes_lt _ _ _ _ hacc
  · exact hs.congr rfl rfl rfl rfl
  · exact hs.congr rfl rfl rfl rfl
  · exact hs.raise _
  · exact hs.congr rfl rfl rfl rfl
  · exact hs.raise _

/-- Settles O36: a reset clears READY, a store or an answer leaves READY, ACT, TABLE and ACC alone, and every command
keeps the invariant. -/
theorem everyStepKeepsTheReadyInvariant : Obligations.EveryStepKeepsTheReadyInvariant := by
  intro s t hs h
  rcases step_cases h with ⟨-, rfl⟩ | ⟨_, -, rfl⟩ | ⟨_, _, -, rfl⟩ | ⟨a, rest, -, haccess⟩
  · exact hs
  · exact readyInv_of_not_ready rfl
  · exact readyInv_of_not_ready rfl
  · have hu : ReadyInv (respond (completion a { s with pending := rest }) { s with pending := rest }) :=
      hs.congr rfl rfl rfl rfl
    rcases haccess with ⟨-, rfl⟩ |
      ⟨off, n, v, rfl, -, ⟨r, -, -, -, -, rfl⟩ | ⟨-, -, ⟨i, -, hexec⟩ | ⟨_, -, rfl⟩⟩⟩
    · exact hu
    · obtain ⟨hstatus, -, hact, htable, hacc, -⟩ := writeReg_frame
        (respond (completion (.write off n v) { s with pending := rest }) { s with pending := rest }) r
        (mergeWrite off n v (readReg r
          (respond (completion (.write off n v) { s with pending := rest }) { s with pending := rest })))
      exact hu.congr (congrArg Status.ready hstatus) hact htable hacc
    · exact exec_keeps_readyInv hu hexec
    · exact hu.raise _

/-- Settles O35: READY is 0 at reset. -/
theorem resetMeetsTheReadyInvariant : Obligations.ResetMeetsTheReadyInvariant :=
  readyInv_of_not_ready rfl

end Sys2Proof.Machine

namespace Sys2Proof.Machine

/-! ### What changes STATUS (R30) -/

/-- How a command `i` turns the flags `f` into other flags, where `valid` says whether the staged configuration is valid. -/
inductive StatusChange (i : Instr) (valid : Bool) (f : Status) : Status → Prop where
  | kept : StatusChange i valid f f
  | cleared (hi : i = .clrerr) : StatusChange i valid f f.cleared
  | configured (hi : i = .configure) (hvalid : valid = true) : StatusChange i valid f f.configured
  | cfgError (hi : i = .configure) (hvalid : valid = false) : StatusChange i valid f (f.raised .cfg)
  | stateError (hready : f.ready = false) (hneeds : NeedsReady i) : StatusChange i valid f (f.raised .state)
  | cmdError (hwf : i.wellFormed = false) : StatusChange i valid f (f.raised .cmd)

/-- How one step turns the flags of `s` into other flags, by its event. -/
inductive StatusCause (s : State) : Status → Prop where
  | kept : StatusCause s s.status
  | reset (h : nextIsReset s = true) : StatusCause s Status.zero
  | malformed (hvalue : nextCommandValue s ≠ none) (hnone : nextCommand s = none) : StatusCause s (s.status.raised .cmd)
  | command {i : Instr} {g : Status} (hi : nextCommand s = some i) (hwf : i.wellFormed = true)
      (h : StatusChange i s.staged.valid s.status g) : StatusCause s g

/-! ### The layout of the window (R22) -/

/-- R22: a register takes the eight bytes from its offset up. -/
theorem offset_of_regAt {off : Byte} {r : Reg} (h : regAt off = some r) :
    r.offset.toNat = 8 * (off.toNat / 8) := by
  unfold regAt at h
  split at h
  case h_10 => cases h
  all_goals
    next hq =>
      cases h
      rw [hq]
      rfl

/-- R22: below 0x48 every offset belongs to a register, the one at the multiple of 8 below it. -/
theorem exists_regAt {off : Byte} (h : off.toNat < 0x48) :
    ∃ r : Reg, regAt off = some r ∧ r.offset.toNat = 8 * (off.toNat / 8) := by
  cases hr : regAt off with
  | none => exact absurd ((regAt_eq_none_iff off).mp hr) (by omega)
  | some r => exact ⟨r, rfl, offset_of_regAt hr⟩

/-! ### The frame of a command (R28, R30, R31, R33 to R35) -/

/-- Settles O10: read off what each command stores. -/
theorem commandsWriteOnlyTheirOwnState : Obligations.CommandsWriteOnlyTheirOwnState := by
  intro i s t h
  rcases exec_cases h with ⟨rfl, rfl⟩ | ⟨rfl, rfl⟩ | ⟨rfl, -, rfl⟩ | ⟨rfl, -, rfl⟩ |
    ⟨-, ⟨rfl, rfl⟩ | ⟨_, rfl, -, rfl⟩ | ⟨rfl, rfl⟩ | ⟨_, rfl, rfl⟩⟩ | ⟨-, rfl, -⟩ | ⟨_, rfl, -, -, rfl⟩ |
    ⟨-, rfl, -⟩
  all_goals simp

/-- R168: a command that is not FINAL, REFLECT or RDTAB keeps RESULT. -/
theorem exec_keeps_result {i : Instr} {s t : State} (h : exec i s = .next t) (hfinal : i ≠ .final)
    (hreflect : ∀ n, i ≠ .reflect n) (hrdtab : ∀ b, i ≠ .rdtab b) : t.result = s.result := by
  obtain ⟨-, -, -, -, -, -, -, hresult⟩ := commandsWriteOnlyTheirOwnState i s t h
  exact hresult hfinal hreflect hrdtab

/-- R30: a command keeps STATUS, or clears the errors, or ends a CONFIGURE, or raises its own error. -/
theorem exec_status {i : Instr} {s t : State} (h : exec i s = .next t) :
    StatusChange i s.staged.valid s.status t.status := by
  rcases exec_cases h with ⟨-, rfl⟩ | ⟨rfl, rfl⟩ | ⟨rfl, hv, rfl⟩ | ⟨rfl, hv, rfl⟩ |
    ⟨-, ⟨-, rfl⟩ | ⟨_, -, -, rfl⟩ | ⟨-, rfl⟩ | ⟨_, -, rfl⟩⟩ | ⟨hready, rfl, hi⟩ | ⟨_, -, -, -, rfl⟩ | ⟨hwf, rfl, -⟩
  · exact .kept
  · exact .cleared rfl
  · exact .configured rfl hv
  · exact .cfgError rfl hv
  · exact .kept
  · exact .kept
  · exact .kept
  · exact .kept
  · exact .stateError hready (hi.imp_right (.imp_left fun ⟨n, hn, _⟩ => ⟨n, hn⟩))
  · exact .kept
  · exact .cmdError hwf

/-- NOP, a legal REFLECT, and with READY = 1 a legal START, FEED, FINAL or RDTAB keep STATUS. -/
theorem exec_keeps_status {i : Instr} {s t : State} (h : exec i s = .next t) (hwf : i.wellFormed = true)
    (hi : i = .nop ∨ (∃ n, i = .reflect n) ∨ (s.status.ready = true ∧ NeedsReady i)) : t.status = s.status := by
  have hclrerr : i ≠ .clrerr := by rintro rfl; simp [NeedsReady] at hi
  have hconfigure : i ≠ .configure := by rintro rfl; simp [NeedsReady] at hi
  have hchange := exec_status h
  revert hchange
  generalize t.status = g
  intro hchange
  cases hchange with
  | kept => rfl
  | cleared hc => exact absurd hc hclrerr
  | configured hc | cfgError hc => exact absurd hc hconfigure
  | stateError hnot hneeds =>
    rcases hi with rfl | ⟨n, rfl⟩ | ⟨hready, -⟩
    · simp [NeedsReady] at hneeds
    · simp [NeedsReady] at hneeds
    · simp [hnot] at hready
  | cmdError hill => simp [hwf] at hill

/-- R53: a byte of the window reads as before if its register does. -/
theorem windowByte_congr {s t : State} {off : Byte} (h : ∀ r, regAt off = some r → readReg r t = readReg r s) :
    windowByte t off = windowByte s off := by
  unfold windowByte registerOf
  cases hr : regAt off with
  | none => rfl
  | some r => simp only [h r hr]

/-- A command leaves a byte of the window as it was, outside STATUS if it changes STATUS and outside RESULT if it changes
RESULT. -/
theorem exec_keeps_windowByte {i : Instr} {s t : State} {off : Byte} (h : exec i s = .next t)
    (hstatus : t.status = s.status ∨ off.toNat < 0x38 ∨ 0x3F < off.toNat)
    (hresult : t.result = s.result ∨ off.toNat < 0x40 ∨ 0x47 < off.toNat) : windowByte t off = windowByte s off := by
  obtain ⟨hstaged, hdin, -⟩ := commandsWriteOnlyTheirOwnState i s t h
  refine windowByte_congr fun r hr => ?_
  cases r with
  | cfgWidth | cfgCtrl | cfgPoly | cfgInit | cfgXorout | din | cmd => simp only [readReg, hstaged, hdin]
  | status =>
    have hoff : 0x38 = 8 * (off.toNat / 8) := offset_of_regAt hr
    have hkept : t.status = s.status := hstatus.resolve_right (by omega)
    simp only [readReg, hkept]
  | result =>
    have hoff : 0x40 = 8 * (off.toNat / 8) := offset_of_regAt hr
    have hkept : t.result = s.result := hresult.resolve_right (by omega)
    exact hkept

/-- Settles O9: a command changes STATUS and RESULT at most, and each clause says which of the two it keeps. -/
theorem commandsLeaveTheOtherWindowBytes : Obligations.CommandsLeaveTheOtherWindowBytes := by
  refine ⟨fun i s t off h hoff => ?_, fun i s t off h hi hoff => ?_, fun i s t off h hwf hi hoff => ?_⟩
  · exact exec_keeps_windowByte h (.inr (by omega)) (.inr (by omega))
  · have hkept : t.result = s.result := by
      rcases hi with rfl | rfl | rfl | ⟨n, rfl⟩ | rfl <;> exact exec_keeps_result h nofun nofun nofun
    exact exec_keeps_windowByte h (.inr hoff) (.inl hkept)
  · exact exec_keeps_windowByte h (.inl (exec_keeps_status h hwf hi)) (.inr hoff)

/-! ### The staged configuration (R63, R191) -/

/-- R162: the READY gate does not look at the staged configuration. -/
theorem requireReady_with_staged (s b : State) (c : Cfg) :
    requireReady { s with staged := c } { b with staged := c } = { requireReady s b with staged := c } := by
  unfold requireReady
  split <;> rfl

/-- Settles O38: command by command, the meaning reads no staged register. -/
theorem onlyConfigureSeesTheStagedConfiguration : Obligations.OnlyConfigureSeesTheStagedConfiguration := by
  intro i s t c hi h
  cases i with
  | configure => exact absurd rfl hi
  | nop | clrerr => cases h; rfl
  | start =>
    cases h
    exact congrArg Host.Outcome.next (requireReady_with_staged s { s with acc := s.act.init } c)
  | final =>
    cases h
    exact congrArg Host.Outcome.next (requireReady_with_staged s { s with result := finalize s.act s.acc } c)
  | rdtab b =>
    cases h
    exact congrArg Host.Outcome.next (requireReady_with_staged s { s with result := tableAt s.table b } c)
  | feed n =>
    by_cases hn : n.toNat ≤ 8
    · rw [exec_feed_legal hn] at h ⊢
      cases h
      exact congrArg Host.Outcome.next (requireReady_with_staged s
        { s with acc := feedLanes s.act s.table s.din n.toNat s.acc } c)
    · rw [exec_feed_illegal (by omega)] at h ⊢
      cases h
      rfl
  | reflect n =>
    by_cases hn : 1 ≤ n.toNat ∧ n.toNat ≤ 64
    · rw [exec_reflect_legal hn.1 hn.2] at h ⊢
      cases h
      rfl
    · rw [exec_reflect_illegal (by omega)] at h ⊢
      cases h
      rfl

end Sys2Proof.Machine

namespace Sys2Proof.Machine

/-! ### What a step does to STATUS and RESULT (R30, R195) -/

/-- R30: a step keeps STATUS, or resets it, or raises CmdError for a malformed word, or does what its command does. -/
theorem step_status_cause {s t : State} (h : step s = .next t) : StatusCause s t.status := by
  rcases step_status h with ⟨hreset, hzero, -, -⟩ | ⟨-, -, hkept, -⟩ | ⟨-, v, hv, hnone, hcmd, -⟩ |
    ⟨-, i, u, -, hi, hwf, hstatus, -, hstaged, hexec⟩
  · exact hzero ▸ .reset hreset
  · exact hkept ▸ .kept
  · exact hcmd ▸ .malformed (by simp [hv]) hnone
  · exact .command hi hwf (hstatus ▸ hstaged ▸ exec_status hexec)

/-- Settles O27: each cause of a new STATUS moves its own bits only. -/
theorem statusBitsHaveOnlyTheirOwnCauses : Obligations.StatusBitsHaveOnlyTheirOwnCauses := by
  intro s t h
  have hcause := step_status_cause h
  revert hcause
  generalize t.status = g
  intro hcause
  cases hcause with
  | kept => simp +contextual
  | reset hreset => simp [hreset, Status.zero]
  | malformed hvalue hnone => simp +contextual [hvalue, hnone]
  | command hi hwf hchange =>
    cases hchange with
    | kept => simp +contextual
    | cleared hc => simp +contextual [hi, hc]
    | configured hc hvalid | cfgError hc hvalid => simp +contextual [hi, hc, hvalid]
    | stateError hready hneeds =>
      rcases hneeds with rfl | ⟨n, rfl⟩ | rfl | ⟨b, rfl⟩ <;> simp +contextual [hi, hready]
    | cmdError hill => simp [hwf] at hill

/-- R162: with READY = 0 a command other than REFLECT keeps RESULT. -/
theorem exec_keeps_result_of_not_ready {i : Instr} {s t : State} (h : exec i s = .next t)
    (hready : s.status.ready = false) : t.result = s.result ∨ ∃ n, i = .reflect n := by
  rcases exec_cases h with ⟨-, rfl⟩ | ⟨-, rfl⟩ | ⟨-, -, rfl⟩ | ⟨-, -, rfl⟩ | ⟨hr, -⟩ | ⟨-, rfl, -⟩ |
    ⟨n, rfl, -, -, rfl⟩ | ⟨-, rfl, -⟩
  case inr.inr.inr.inr.inl => simp [hready] at hr
  case inr.inr.inr.inr.inr.inr.inl => exact .inr ⟨n, rfl⟩
  all_goals exact .inl rfl

/-- Settles O31: READY rises by a CONFIGURE that passes validation alone, and FINAL and RDTAB stop at the READY gate. -/
theorem noChecksumWithoutAValidConfiguration : Obligations.NoChecksumWithoutAValidConfiguration := by
  intro s t h hready hnot
  constructor
  · obtain ⟨hrise, -⟩ := statusBitsHaveOnlyTheirOwnCauses s t h
    by_contra ht
    exact hnot (hrise hready (by simpa using ht))
  · rcases step_status h with ⟨hreset, -⟩ | ⟨-, -, -, hresult⟩ | ⟨-, _, -, -, -, hresult⟩ |
      ⟨-, i, u, -, hi, -, hstatus, hresult, -, hexec⟩
    · exact .inr (.inl hreset)
    · exact .inl hresult
    · exact .inl hresult
    · rcases exec_keeps_result_of_not_ready hexec (by rw [hstatus, hready]) with hkept | ⟨n, rfl⟩
      · exact .inl (hkept.trans hresult)
      · exact .inr (.inr ⟨n, hi⟩)

end Sys2Proof.Machine

namespace Sys2Proof.Machine

/-! ### The window (R7, R50) -/

/-- R50: the window holds the 256 addresses from BASE up, decoded by their distance from BASE. -/
theorem windowOffset_base_add (off : Byte) : windowOffset (Config.base + off.toNat) = some off := by
  have hin : Config.base ≤ Config.base + off.toNat ∧ Config.base + off.toNat < Config.base + Config.windowSize :=
    ⟨Nat.le_add_right _ _, Nat.add_lt_add_left off.isLt _⟩
  rw [windowOffset, if_pos hin, Nat.add_sub_cancel_left, BitVec.ofNat_toNat, BitVec.setWidth_eq]

/-- R50: an address outside it is not in the window. -/
theorem windowOffset_outside {addr : Nat} (h : addr < Config.base ∨ Config.base + 256 ≤ addr) :
    windowOffset addr = none :=
  if_neg fun ⟨hlo, hhi⟩ => h.elim (Nat.not_lt.mpr hlo) (Nat.not_le.mpr hhi)

/-- Settles O25: BASE is a multiple of 256, and the offsets are decoded by their quotient by 8. -/
theorem theWindowIsDecodedByOffset : Obligations.TheWindowIsDecodedByOffset :=
  ⟨Nat.mul_mod_right _ _, windowOffset_base_add, fun _ => windowOffset_outside,
    ⟨rfl, rfl, rfl, rfl, rfl, rfl, rfl, rfl, rfl⟩, ⟨rfl, rfl, rfl, rfl, rfl, rfl, rfl, rfl, rfl⟩,
    fun _ => exists_regAt, fun off => (regAt_eq_none_iff off).mpr⟩

/-- Settles O26: the bits of a read of STATUS. -/
theorem statusReadsItsFourFlags : Obligations.StatusReadsItsFourFlags :=
  fun s => readReg_status_bits s

/-! ### The byte order of a read (R53) -/

/-- R53: within a register the byte of the window `k` above an offset is the byte `k` above that offset's own. -/
theorem windowByte_add (s : State) {off : Byte} {k : Nat} (hoff : off.toNat < 0x48) (hk : off.toNat % 8 + k < 8) :
    windowByte s (off + BitVec.ofNat 8 k) = (registerOf off s).extractLsb' (8 * (off.toNat % 8 + k)) 8 := by
  have hsum : (off + BitVec.ofNat 8 k).toNat = off.toNat + k := by
    rw [BitVec.toNat_add, BitVec.toNat_ofNat, Nat.mod_eq_of_lt (by omega : k < 2 ^ 8), Nat.mod_eq_of_lt (by omega)]
  have hdiv : (off.toNat + k) / 8 = off.toNat / 8 := by omega
  have hmod : (off.toNat + k) % 8 = off.toNat % 8 + k := by omega
  simp only [windowByte, registerOf, regAt, hsum, hdiv, hmod]

/-- R22: a register's offset is a multiple of 8 below 0x48. -/
theorem offset_aligned (r : Reg) : r.offset.toNat % 8 = 0 ∧ r.offset.toNat < 0x48 := by
  cases r <;> decide

/-- R54: an aligned read of 8 or 4 bytes below 0x48 is legal. -/
theorem aligned_read_legal {off : Byte} {n : Nat} (hn : n = 4 ∨ n = 8) (hal : off.toNat % n = 0)
    (hoff : off.toNat < 0x48) : (Access.read off n).isBusError = false := by
  rw [← Bool.not_eq_true, isBusError_read_iff]
  rintro (hsize | hmis | hres)
  · exact hsize hn
  · exact hmis hal
  · omega

/-- Bits of a part of a vector are bits of the vector. -/
theorem extractLsb'_extractLsb' {w : Nat} (x : BitVec w) (base : Nat) {n start len : Nat} (h : start + len ≤ n) :
    (x.extractLsb' base n).extractLsb' start len = x.extractLsb' (base + start) len := by
  apply BitVec.eq_of_getLsbD_eq
  intro i hi
  have hin : start + i < n := by omega
  simp [hi, hin, Nat.add_assoc]

/-- R53: the half of a register that a 4-byte access moves, from its lowest byte up. -/
theorem halfAt_eq {off : Byte} (hal : off.toNat % 4 = 0) (x : Word) :
    halfAt off x = x.extractLsb' (8 * (off.toNat % 8)) 32 := by
  obtain h | h : off.toNat % 8 = 0 ∨ off.toNat % 8 = 4 := by omega
  · simp [halfAt, upperHalfAt, h]
  · simp [halfAt, upperHalfAt, h]

/-- Settles O20: a legal read is aligned, so it stays within one register, and returns that register or a half of it. -/
theorem readsAreLittleEndian : Obligations.ReadsAreLittleEndian := by
  refine ⟨fun s r k hk => ?_, fun s rest off hp hal hoff => ?_, fun s rest off hp hal hoff => ?_⟩
  · obtain ⟨hal, hoff⟩ := offset_aligned r
    rw [windowByte_add s hoff (by omega), hal, Nat.zero_add, registerOf_offset]
  · refine ⟨_, registerOf off s, step_legal_read hp (aligned_read_legal (.inr rfl) hal hoff), rfl, fun k hk => ?_⟩
    rw [windowByte_add s hoff (by omega), hal, Nat.zero_add]
  · refine ⟨_, halfAt off (registerOf off s), step_legal_read hp (aligned_read_legal (.inl rfl) hal hoff), rfl,
      fun k hk => ?_⟩
    rw [windowByte_add s hoff (by omega), halfAt_eq hal, extractLsb'_extractLsb' _ _ (by omega), Nat.mul_add]

/-! ### What a store replaces (R23 to R28, R55) -/

/-- R55: a store leaves every other register as it reads. -/
theorem readReg_writeReg_ne {r r' : Reg} (h : r' ≠ r) (v : Word) (s : State) :
    readReg r' (writeReg r v s) = readReg r' s := by
  cases r <;> cases r' <;> first | exact absurd rfl h | rfl

/-- R23 to R28: the register stored to reads as the value in its implemented bits and 0 above them. -/
theorem getLsbD_readReg_writeReg {r : Reg} (hcmd : r ≠ .cmd) (hstatus : r ≠ .status) (hresult : r ≠ .result) (v : Word)
    (s : State) {i : Nat} (hi : i < 64) :
    (readReg r (writeReg r v s)).getLsbD i = (decide (i < writableBits r) && v.getLsbD i) := by
  cases r with
  | cmd => exact absurd rfl hcmd
  | status => exact absurd rfl hstatus
  | result => exact absurd rfl hresult
  | cfgPoly | cfgInit | cfgXorout | din => simp [readReg, writeReg, writableBits, hi]
  | cfgWidth =>
    rw [getLsbD_readReg_cfgWidth _ hi]
    simp only [writeReg, writableBits, BitVec.getLsbD_extractLsb', Nat.zero_add]
    rw [← Bool.and_assoc, Bool.and_self]
    rfl
  | cfgCtrl =>
    obtain ⟨h0, h1, hup⟩ := readReg_cfgCtrl_bits (writeReg .cfgCtrl v s)
    obtain rfl | rfl | h2 : i = 0 ∨ i = 1 ∨ 2 ≤ i := by omega
    · rw [h0]; rfl
    · rw [h1]; rfl
    · have hout : ¬ i < writableBits .cfgCtrl := Nat.not_lt.mpr h2
      rw [hup i h2, decide_eq_false hout, Bool.false_and]

/-- R24: a store of a register keeps only its implemented bits. -/
theorem writeReg_congr {r : Reg} {v v' : Word} (h : ∀ i, i < writableBits r → v.getLsbD i = v'.getLsbD i) (s : State) :
    writeReg r v s = writeReg r v' s := by
  have hword (hall : ∀ i, i < 64 → v.getLsbD i = v'.getLsbD i) : v = v' := BitVec.eq_of_getLsbD_eq hall
  cases r with
  | cmd | status | result => rfl
  | cfgPoly | cfgInit | cfgXorout | din => rw [hword h]
  | cfgCtrl => simp only [writeReg, Cfg.withCtrl, h 0 (by decide), h 1 (by decide)]
  | cfgWidth =>
    have hlow : v.extractLsb' 0 7 = v'.extractLsb' 0 7 := by
      apply BitVec.eq_of_getLsbD_eq
      intro i hi
      simp [hi, h i hi]
    simp only [writeReg, hlow]

/-- The last of two stores to a register stays. -/
theorem writeReg_writeReg (r : Reg) (v v' : Word) (s : State) : writeReg r v' (writeReg r v s) = writeReg r v' s := by
  cases r <;> rfl

/-- R53: which half of a register a 4-byte access names. -/
theorem upperHalfAt_offset_add (r : Reg) {up : Nat} (hup : up = 0 ∨ up = 4) :
    upperHalfAt (r.offset + BitVec.ofNat 8 up) = decide (up = 4) := by
  rcases hup with rfl | rfl <;> cases r <;> rfl

/-- R55: the bits a legal write names come from its value, the others are kept. -/
theorem getLsbD_mergeWrite (r : Reg) {up n : Nat} (hn : (n = 8 ∧ up = 0) ∨ (n = 4 ∧ (up = 0 ∨ up = 4))) (v x : Word)
    {i : Nat} (hi : i < 64) :
    (mergeWrite (r.offset + BitVec.ofNat 8 up) n v x).getLsbD i =
      if 8 * up ≤ i ∧ i < 8 * up + 8 * n then v.getLsbD (i - 8 * up) else x.getLsbD i := by
  rcases hn with ⟨rfl, rfl⟩ | ⟨rfl, hup⟩
  · simp [mergeWrite, hi]
  rw [mergeWrite, if_pos rfl, getLsbD_withHalfAt _ _ _ i hi, BitVec.getLsbD_extractLsb']
  simp only [upperHalfAt_offset_add r hup]
  rcases hup with rfl | rfl
  · by_cases h : i < 32
    · simp [h, Nat.not_le.mpr h, Nat.mod_eq_of_lt h]
    · simp [h, Nat.le_of_not_lt h]
  · by_cases h : i < 32
    · simp [Nat.not_le.mpr h]
    · obtain ⟨j, rfl⟩ := Nat.exists_eq_add_of_le (Nat.le_of_not_lt h)
      have hj : j < 32 := by omega
      simp [hj, Nat.mod_eq_of_lt hj, Nat.not_le.mpr hi]

/-- R55, R56: the writes of 8 bytes and of either half of a register other than STATUS, RESULT and CMD are legal, and
they name that register. -/
theorem offset_write_legal {r : Reg} (hcmd : r ≠ .cmd) (hstatus : r ≠ .status) (hresult : r ≠ .result) {up n : Nat}
    (hn : (n = 8 ∧ up = 0) ∨ (n = 4 ∧ (up = 0 ∨ up = 4))) (v : Word) :
    (Access.write (r.offset + BitVec.ofNat 8 up) n v).isBusError = false ∧
      regAt (r.offset + BitVec.ofNat 8 up) = some r := by
  rcases hn with ⟨rfl, rfl⟩ | ⟨rfl, rfl | rfl⟩ <;> cases r <;>
    first | exact absurd rfl hcmd | exact absurd rfl hstatus | exact absurd rfl hresult | exact ⟨rfl, rfl⟩

/-- Settles O21: such a write is one store of the merged value, after the answer. -/
theorem writesReplaceTheBytesTheyName : Obligations.WritesReplaceTheBytesTheyName := by
  intro s rest r up n v hcmd hstatus hresult hn hp
  obtain ⟨hlegal, hreg⟩ := offset_write_legal hcmd hstatus hresult hn v
  rw [step_legal_write hp hlegal, performWrite_store hreg hcmd]
  obtain ⟨-, -, hact, htable, hacc, hpending, hresponses, -⟩ := writeReg_frame
    { s with pending := rest, responses := .done :: s.responses } r
    (mergeWrite (r.offset + BitVec.ofNat 8 up) n v
      (readReg r { s with pending := rest, responses := .done :: s.responses }))
  refine ⟨_, rfl, fun i hi => ?_, fun r' hr' => ?_, hact, htable, hacc, hpending, hresponses⟩
  · rw [getLsbD_readReg_writeReg hcmd hstatus hresult _ _ hi, getLsbD_mergeWrite r hn _ _ hi]
    by_cases hw : writableBits r ≤ i
    · rw [if_pos hw, decide_eq_false (Nat.not_lt.mpr hw), Bool.false_and]
    · rw [if_neg hw, decide_eq_true (Nat.lt_of_not_le hw), Bool.true_and]
      rfl
  · rw [readReg_writeReg_ne hr']
    rfl

/-! ### Repeated accesses (R57) -/

/-- R54, R56: a step whose access is a read answers it and changes nothing in the block. -/
theorem step_read {s : State} {off : Byte} {n : Nat} {rest : List Event}
    (h : s.pending = .access (.read off n) :: rest) :
    step s = .next { s with pending := rest, responses := completion (.read off n) s :: s.responses } := by
  cases hb : (Access.read off n).isBusError with
  | true => simp only [step_busError h hb, completion, hb, if_true]
  | false => simp [step_legal_read h hb, completion, hb]

/-- R55: merging the same write again does nothing to the bits that the first has set. -/
theorem getLsbD_mergeWrite_congr (off : Byte) (n : Nat) (v : Word) {x y : Word} {i : Nat} (hi : i < 64)
    (h : x.getLsbD i = (mergeWrite off n v y).getLsbD i) :
    (mergeWrite off n v x).getLsbD i = (mergeWrite off n v y).getLsbD i := by
  by_cases hn : n = 4
  · simp only [mergeWrite, if_pos hn] at h ⊢
    rw [getLsbD_withHalfAt off _ x i hi]
    split
    · next hnamed => rw [getLsbD_withHalfAt off _ y i hi, if_pos hnamed]
    · exact h
  · simp only [mergeWrite, if_neg hn]

/-- R57: storing the same write again leaves the same state. -/
theorem writeReg_mergeWrite_idem {r : Reg} (hcmd : r ≠ .cmd) (hstatus : r ≠ .status) (hresult : r ≠ .result)
    (off : Byte) (n : Nat) (v y : Word) (s : State) :
    writeReg r (mergeWrite off n v (readReg r (writeReg r (mergeWrite off n v y) s)))
      (writeReg r (mergeWrite off n v y) s) = writeReg r (mergeWrite off n v y) s := by
  rw [writeReg_writeReg]
  refine writeReg_congr (fun i hi => ?_) s
  have h64 : i < 64 := lt_of_lt_of_le hi (by cases r <;> decide)
  refine getLsbD_mergeWrite_congr off n v h64 ?_
  rw [getLsbD_readReg_writeReg hcmd hstatus hresult _ _ h64, decide_eq_true hi, Bool.true_and]

/-- A store does not see the host's side of the port, and leaves it alone. -/
theorem writeReg_with_port (r : Reg) (v : Word) (s : State) (p : List Event) (q : List Response) :
    writeReg r v { s with pending := p, responses := q } = { writeReg r v s with pending := p, responses := q } := by
  cases r <;> rfl

/-- Neither does a register's value. -/
theorem readReg_with_port (r : Reg) (s : State) (p : List Event) (q : List Response) :
    readReg r { s with pending := p, responses := q } = readReg r s := by
  cases r <;> rfl

/-- R55: a step whose access is a legal write to a register other than CMD stores the merged value and answers. -/
theorem step_store {s : State} {off : Byte} {n : Nat} {v : Word} {rest : List Event} {r : Reg}
    (h : s.pending = .access (.write off n v) :: rest) (hb : (Access.write off n v).isBusError = false)
    (hr : regAt off = some r) (hc : r ≠ .cmd) :
    step s = .next { writeReg r (mergeWrite off n v (readReg r s)) s with
      pending := rest, responses := .done :: s.responses } := by
  rw [step_legal_write h hb, performWrite_store hr hc, readReg_with_port, writeReg_with_port]

/-- Settles O22: a read, and an access that is a bus error, change nothing, and a store done twice is the store. -/
theorem accessesButCmdWritesAreIdempotent : Obligations.AccessesButCmdWritesAreIdempotent := by
  refine ⟨fun s t u off n rest hp hs ht => ?_, fun s t u off n v rest hoff hp hs ht => ?_⟩
  · rw [step_read hp] at hs
    cases hs
    rw [step_read rfl] at ht
    cases ht
    exact ⟨_, rfl, rfl⟩
  · cases hb : (Access.write off n v).isBusError with
    | true =>
      rw [step_busError hp hb] at hs
      cases hs
      rw [step_busError rfl hb] at ht
      cases ht
      exact ⟨_, rfl, rfl⟩
    | false =>
      obtain ⟨r, hr, hstatus, hresult⟩ := legal_write_register hb
      have hcmd : r ≠ .cmd := by
        rintro rfl
        have := (regAt_eq_cmd_iff off).mp hr
        omega
      rw [step_store hp hb hr hcmd] at hs
      cases hs
      rw [step_store rfl hb hr hcmd, readReg_with_port, writeReg_with_port,
        writeReg_mergeWrite_idem hcmd hstatus hresult] at ht
      cases ht
      exact ⟨.done, rfl, rfl⟩

/-! ### CMD writes (R55, R72) -/

/-- R55, R72: a step whose access is a legal CMD write issues its value, after the answer. -/
theorem step_commandWrite {s : State} {n : Nat} {v : Word} {rest : List Event}
    (h : s.pending = .access (.write 0x30#8 n v) :: rest) (hn : n = 4 ∨ n = 8) :
    step s = issueCommand (commandValue n v) { s with pending := rest, responses := .done :: s.responses } := by
  have hlegal : (Access.write 0x30#8 n v).isBusError = false := by rcases hn with rfl | rfl <;> rfl
  rw [step_legal_write h hlegal, performWrite_cmd rfl]

/-- Settles O16: a CMD write issues its value, its low word if it is of 4 bytes. -/
theorem stepRunsTheDecodedCommand : Obligations.StepRunsTheDecodedCommand :=
  ⟨fun _ _ v i h hd => (step_commandWrite h (.inl rfl)).trans
      (issueCommand_ok (v := commandValue 4 v) (i := i) hd _),
    fun _ _ v i h hd => (step_commandWrite h (.inr rfl)).trans
      (issueCommand_ok (v := commandValue 8 v) (i := i) hd _)⟩

/-- Settles O17: a value that does not decode raises CmdError and no more. -/
theorem stepRejectsMalformedCommands : Obligations.StepRejectsMalformedCommands :=
  ⟨fun _ _ v e h hd => (step_commandWrite h (.inl rfl)).trans
      (issueCommand_error (v := commandValue 4 v) (e := e) hd _),
    fun _ _ v e h hd => (step_commandWrite h (.inr rfl)).trans
      (issueCommand_error (v := commandValue 8 v) (e := e) hd _)⟩

/-! ### Reset with an access, and out of reset (R167, R181, R182) -/

/-- R181: a step in which a reset interrupts an access. -/
theorem step_resetDuring {s : State} {a : Access} {rest : List Event} (h : s.pending = .resetDuring a :: rest) :
    step s = .next (applyResetDuring a { s with pending := rest }) := step_cons h

/-- R167: the answer to an access that a reset interrupts is its completion, or `dropped`. -/
theorem applyResetDuring_responses (a : Access) (s : State) :
    (applyResetDuring a s).responses = completion a s :: s.responses ∨
      (applyResetDuring a s).responses = .dropped :: s.responses := by
  unfold applyResetDuring
  cases Config.interruptedAck s.draws with
  | true => exact .inl rfl
  | false => exact .inr rfl

/-- What the port answers does not depend on what waits there. -/
theorem completion_with_pending (a : Access) (s : State) (rest : List Event) :
    completion a { s with pending := rest } = completion a s := by
  cases a <;> rfl

/-- Settles O33: both steps reset the block, and they differ in the answer. -/
theorem resetWinsOverAnAccess : Obligations.ResetWinsOverAnAccess := by
  intro s a rest hp
  refine ⟨_, _, step_resetDuring hp, step_reset rfl, rfl, rfl, rfl, rfl, rfl, rfl, rfl, ?_⟩
  rw [← completion_with_pending a s rest]
  exact applyResetDuring_responses a { s with pending := rest }

/-- R100: a configuration whose width still has its reset value is not valid. -/
theorem valid_of_width_zero {c : Cfg} (h : c.width = Cfg.zero.width) : c.valid = false := by
  rw [valid_eq_false_iff, h]
  exact .inl (by decide)

/-- Settles O34: clause by clause, what a command does with READY = 0 and nothing staged. -/
theorem outOfReset : Obligations.OutOfReset := by
  refine ⟨step_nil rfl, fun i hwf hi => ⟨_, exec_of_needsReady rfl hwf hi, by decide⟩, exec_nop _, exec_clrerr _,
    fun n v hlo hhi => exec_reflect_legal hlo hhi _, fun c hc => ?_, fun c hc => ?_⟩
  · exact ⟨_, exec_configure_valid hc, (by decide : Status.zero.configured.toWord = 0x01#64), rfl⟩
  · exact ⟨_, exec_configure_invalid (valid_of_width_zero hc),
      (by decide : (Status.zero.raised .cfg).toWord = 0x02#64)⟩

/-- Settles O52: START loads the initial value and FINAL finalizes it, both behind the READY gate. -/
theorem emptyInputChecksum : Obligations.EmptyInputChecksum := by
  intro s t hr h
  rw [exec_start, requireReady_of_ready hr] at h
  cases h
  exact congrArg Host.Outcome.next (requireReady_of_ready (s := { s with acc := s.act.init }) hr _)

end Sys2Proof.Machine

namespace Sys2Proof

/-! ### The fields of a command word (R70, R76) -/

/-- R70, R76: above OPC a command's word holds its argument, with RSV = 0. -/
theorem encode_fields (i : Instr) : rsvField (encode i) = 0#16 ∧ argField (encode i) = argumentOf i := by
  have above_opc {start len : Nat} (h : 8 ≤ start) :
      (encode i).extractLsb' start len = (0#16 ++ argumentOf i).extractLsb' (start - 8) len :=
    BitVec.extractLsb'_append_eq_of_le h
  constructor
  · rw [rsvField, above_opc (by decide)]
    exact (BitVec.extractLsb'_append_eq_of_le (by decide)).trans rfl
  · rw [argField, above_opc (by decide)]
    exact BitVec.extractLsb'_append_eq_right

/-- Settles O14: the shift and the OR, bit by bit, are the concatenation, and the fields read back from it. -/
theorem encodedWordsHaveTheThreeFields : Obligations.EncodedWordsHaveTheThreeFields := by
  intro i
  obtain ⟨hrsv, harg⟩ := encode_fields i
  refine ⟨?_, hrsv, harg, opcField_encode i⟩
  apply BitVec.eq_of_getLsbD_eq
  intro k hk
  rw [encode, BitVec.getLsbD_append, BitVec.getLsbD_append, BitVec.getLsbD_or, BitVec.getLsbD_shiftLeft,
    BitVec.getLsbD_setWidth, BitVec.getLsbD_setWidth]
  by_cases h8 : k < 8
  · simp [h8, hk]
  · have hopc : (opcodeOf i).getLsbD k = false := BitVec.getLsbD_of_ge _ _ (Nat.le_of_not_lt h8)
    by_cases h16 : k - 8 < 8
    · simp [h8, h16, hk, hopc]
      omega
    · have harg : (argumentOf i).getLsbD (k - 8) = false := BitVec.getLsbD_of_ge _ _ (Nat.le_of_not_lt h16)
      simp [h8, h16, hopc, harg]

/-- Settles O15: each word is evaluated. -/
theorem sampleWordsDecode : Obligations.SampleWordsDecode := by
  unfold Obligations.SampleWordsDecode
  decide

end Sys2Proof

namespace Sys2Proof.Machine

/-! ### What a block has consumed (R126, R128) -/

/-- What a block that has consumed `bytes` since `s` looks like: ACC is the fold of the step over them, and the
configuration, TABLE and STATUS are as they were. -/
structure Consumed (bytes : List Byte) (s t : State) : Prop where
  acc : t.acc = bytes.foldl (crcStep s.act s.table) s.acc
  status : t.status = s.status
  act : t.act = s.act
  table : t.table = s.table
  staged : t.staged = s.staged

/-- Consuming nothing. -/
theorem consumed_nil (s : State) : Consumed [] s s := ⟨rfl, rfl, rfl, rfl, rfl⟩

/-- Consuming one list of bytes after another. -/
theorem Consumed.append {xs ys : List Byte} {s t u : State} (h1 : Consumed xs s t) (h2 : Consumed ys t u) :
    Consumed (xs ++ ys) s u where
  acc := by rw [List.foldl_append, ← h1.acc, ← h1.act, ← h1.table, h2.acc]
  status := h2.status.trans h1.status
  act := h2.act.trans h1.act
  table := h2.table.trans h1.table
  staged := h2.staged.trans h1.staged

/-! ### Reflection (R140 to R142) -/

/-- R140: bit `i` of a reflection is the bit as far from the other end. -/
theorem getLsbD_reflect_of_add (v : Word) {n i j : Nat} (hn : n ≤ 64) (h : i + j + 1 = n) :
    (reflect v n).getLsbD i = v.getLsbD j := by
  subst h
  have hin : i < i + j + 1 := by omega
  rw [getLsbD_reflect v _ i hn, decide_eq_true hin, Bool.true_and, Nat.add_sub_cancel, Nat.add_sub_cancel_left]

/-- R140: from the length on a reflection is 0. -/
theorem getLsbD_reflect_of_le (v : Word) {n i : Nat} (hn : n ≤ 64) (h : n ≤ i) : (reflect v n).getLsbD i = false :=
  getLsbD_of_lt (reflect_lt v hn) h

/-- The place of a bit counted from either end. -/
theorem exists_opposite {i n : Nat} (h : i < n) : ∃ j, i + j + 1 = n ∧ j + i + 1 = n := by
  obtain ⟨j, rfl⟩ := Nat.exists_eq_add_of_lt h
  exact ⟨j, rfl, by rw [Nat.add_comm j i]⟩

/-- R142: reflecting twice keeps the low bits. -/
theorem reflect_reflect (v : Word) {n : Nat} (hn : n ≤ 64) : reflect (reflect v n) n = v &&& mask n := by
  apply BitVec.eq_of_getLsbD_eq
  intro i hi
  rw [BitVec.getLsbD_and, getLsbD_mask, decide_eq_true hi, Bool.and_true]
  by_cases h : i < n
  · obtain ⟨j, hij, hji⟩ := exists_opposite h
    rw [getLsbD_reflect_of_add _ hn hij, getLsbD_reflect_of_add _ hn hji, decide_eq_true h, Bool.and_true]
  · rw [getLsbD_reflect_of_le _ hn (Nat.le_of_not_lt h), decide_eq_false h, Bool.and_false]

/-- Settles O49: `reflect_reflect` for the lengths that REFLECT takes. -/
theorem reflectionIsAnInvolution : Obligations.ReflectionIsAnInvolution :=
  fun v _ _ hn => reflect_reflect v hn

/-- Settles O50: with m = j + k + 1 and i + a = 7, bit i of byte j is bit 8k + a of the value, bit a of byte k. -/
theorem reflectionIsByteReflectionAndByteReversal : Obligations.ReflectionIsByteReflectionAndByteReversal := by
  intro v m j _ hm hj
  obtain ⟨k, rfl⟩ := Nat.exists_eq_add_of_lt hj
  have hk : j + k + 1 - 1 - j = k := by rw [Nat.add_sub_cancel, Nat.add_sub_cancel_left]
  rw [hk]
  apply BitVec.eq_of_getLsbD_eq
  intro i hi
  rw [BitVec.getLsbD_setWidth, BitVec.getLsbD_extractLsb', decide_eq_true hi, Bool.true_and]
  by_cases h : i < 8
  · obtain ⟨a, hia, -⟩ := exists_opposite h
    have ha : a < 8 := by omega
    rw [getLsbD_reflect_of_add v (i := 8 * j + i) (j := 8 * k + a) (by omega) (by omega),
      getLsbD_reflect_of_add _ (by decide) hia, BitVec.getLsbD_setWidth, BitVec.getLsbD_extractLsb', decide_eq_true h,
      decide_eq_true ha, decide_eq_true (Nat.lt_trans ha (by decide : 8 < 64)), Bool.true_and, Bool.true_and]
  · rw [getLsbD_reflect_of_le _ (by decide) (Nat.le_of_not_lt h), decide_eq_false h, Bool.false_and]

/-- Reflection looks at the low bits only. -/
theorem reflect_and_mask (x : Word) {w : Nat} (hw : w ≤ 64) : reflect (x &&& mask w) w = reflect x w := by
  apply BitVec.eq_of_getLsbD_eq
  intro i _
  by_cases h : i < w
  · obtain ⟨j, hij, -⟩ := exists_opposite h
    have hj : j < w := by omega
    rw [getLsbD_reflect_of_add _ hw hij, getLsbD_reflect_of_add _ hw hij, BitVec.getLsbD_and, getLsbD_mask,
      decide_eq_true hj, decide_eq_true (Nat.lt_of_lt_of_le hj hw), Bool.and_self, Bool.and_true]
  · rw [getLsbD_reflect_of_le _ hw (Nat.le_of_not_lt h), getLsbD_reflect_of_le _ hw (Nat.le_of_not_lt h)]

/-- A bit that a shift left has moved up. -/
theorem getLsbD_shiftLeft_add (x : Word) {k i : Nat} (h : k + i < 64) : (x <<< k).getLsbD (k + i) = x.getLsbD i := by
  rw [BitVec.getLsbD_shiftLeft, decide_eq_true h, decide_eq_false (Nat.not_lt.mpr (Nat.le_add_right k i)),
    Nat.add_sub_cancel_left]
  rfl

/-- A bit that a shift left has filled in. -/
theorem getLsbD_shiftLeft_of_lt (x : Word) {k i : Nat} (h : i < k) : (x <<< k).getLsbD i = false := by
  rw [BitVec.getLsbD_shiftLeft, decide_eq_true h, Bool.not_true, Bool.and_false, Bool.false_and]

/-- A shift left is a shift right of the reflection. -/
theorem reflect_shiftLeft (x : Word) (k : Nat) {w : Nat} (hw : w ≤ 64) :
    reflect (x <<< k) w = reflect x w >>> k := by
  apply BitVec.eq_of_getLsbD_eq
  intro i _
  rw [BitVec.getLsbD_ushiftRight]
  by_cases h : k + i < w
  · obtain ⟨j, hij, -⟩ := exists_opposite h
    rw [getLsbD_reflect_of_add _ hw hij, getLsbD_reflect_of_add (j := k + j) _ hw (by omega),
      getLsbD_shiftLeft_add _ (by omega)]
  · rw [getLsbD_reflect_of_le x hw (Nat.le_of_not_lt h)]
    by_cases hin : i < w
    · obtain ⟨j, hij, -⟩ := exists_opposite hin
      rw [getLsbD_reflect_of_add _ hw hij, getLsbD_shiftLeft_of_lt _ (by omega)]
    · rw [getLsbD_reflect_of_le _ hw (Nat.le_of_not_lt hin)]

/-- A shift right of a value that fits is, reflected, a shift left within the width. -/
theorem reflect_ushiftRight {x : Word} (k : Nat) {w : Nat} (hw : w ≤ 64) (hx : x.toNat < 2 ^ w) :
    reflect (x >>> k) w = (reflect x w <<< k) &&& mask w := by
  apply BitVec.eq_of_getLsbD_eq
  intro i hi
  rw [BitVec.getLsbD_and, getLsbD_mask, decide_eq_true hi, Bool.and_true]
  by_cases h : i < w
  · obtain ⟨j, hij, -⟩ := exists_opposite h
    rw [getLsbD_reflect_of_add _ hw hij, BitVec.getLsbD_ushiftRight, decide_eq_true h, Bool.and_true]
    obtain hk | ⟨a, rfl⟩ := (Nat.lt_or_ge i k).imp_right Nat.exists_eq_add_of_le
    · rw [getLsbD_shiftLeft_of_lt _ hk, getLsbD_of_lt hx (by omega)]
    · rw [getLsbD_shiftLeft_add _ hi, getLsbD_reflect_of_add (j := k + j) _ hw (by omega)]
  · rw [getLsbD_reflect_of_le _ hw (Nat.le_of_not_lt h), decide_eq_false h, Bool.and_false]

/-! ### Finalization (R122, R124, R176) -/

/-- Settles O47: within the width the complement is an XOR with the mask; above it ACC, the final XOR and the mask are 0. -/
theorem finalizationMapping : Obligations.FinalizationMapping := by
  intro c acc hvalid hacc hrefout
  obtain ⟨-, -, -, -, hxorout⟩ := (valid_iff c).mp hvalid
  apply BitVec.eq_of_getLsbD_eq
  intro i hi
  rw [getLsbD_finalize c acc hi, BitVec.getLsbD_xor, BitVec.getLsbD_xor, getLsbD_mask]
  by_cases h : i < c.width.toNat
  · simp [h, hi, hrefout]
  · have ha : acc.getLsbD i = false := getLsbD_of_lt hacc (by omega)
    have hx : c.xorout.getLsbD i = false := hxorout i (by omega)
    simp [h, ha, hx]

/-- Settles O48: within the width each bit of ACC is its bit of the result XOR a constant; above it both values are 0. -/
theorem finalizationIsInvertible : Obligations.FinalizationIsInvertible := by
  intro c x y _ hx hy hxy
  apply BitVec.eq_of_getLsbD_eq
  intro i hi
  by_cases h : i < c.width.toNat
  · have hbit : (finalize c x).getLsbD i = (finalize c y).getLsbD i := by rw [hxy]
    rw [getLsbD_finalize c x hi, getLsbD_finalize c y hi] at hbit
    simpa [h] using hbit
  · rw [getLsbD_of_lt hx (by omega), getLsbD_of_lt hy (by omega)]

/-! ### The table (R102, R103) -/

/-- Masking before a shift left changes nothing within the width. -/
theorem and_mask_shiftLeft_and_mask (x : Word) (w k : Nat) :
    ((x &&& mask w) <<< k) &&& mask w = (x <<< k) &&& mask w := by
  apply BitVec.eq_of_getLsbD_eq
  intro i hi
  simp only [BitVec.getLsbD_and, BitVec.getLsbD_shiftLeft, getLsbD_mask]
  by_cases h : i < w
  · have hin : i - k < w := by omega
    have hword : i - k < 64 := by omega
    simp [hin, hword]
  · simp [h]

/-- A shift by the width leaves nothing within it. -/
@[simp] theorem shiftLeft_width_and_mask (x : Word) (w : Nat) : (x <<< w) &&& mask w = 0#64 := by
  apply BitVec.eq_of_getLsbD_eq
  intro i _
  by_cases h : i < w <;> simp [h]

/-- R103 (d): division by the zero polynomial only shifts. -/
theorem divideBits_zero_poly (w k : Nat) (x : Word) :
    divideBits w 0#64 k (x &&& mask w) = (x <<< k) &&& mask w := by
  induction k generalizing x with
  | zero => simp [divideBits]
  | succ k ih =>
    have hturn : divideBit w 0#64 (x &&& mask w) = (x <<< 1) &&& mask w := by
      rw [divideBit_eq, ite_self, BitVec.xor_zero, and_mask_shiftLeft_and_mask]
    rw [divideBits, hturn, ih, ← BitVec.shiftLeft_add, Nat.add_comm]

/-- R103 (d): every entry of the zero polynomial is 0, as the byte leaves the register. -/
theorem tableEntry_zero_poly {c : Cfg} (hlo : 8 ≤ c.width.toNat) (hp : c.poly = 0#64) (b : Byte) :
    tableEntry c b = 0#64 := by
  have hgone (x : Word) : divideBits c.width.toNat 0#64 8
      ((x <<< (c.width.toNat - 8)) &&& mask c.width.toNat) = 0#64 := by
    rw [divideBits_zero_poly, ← BitVec.shiftLeft_add, Nat.sub_add_cancel hlo, shiftLeft_width_and_mask]
  cases hr : c.refin with
  | false => rw [tableEntry_plain hr, hp, hgone]
  | true => rw [tableEntry_reflected hr, hp, hgone, reflect_zero]

/-- R103 (a): an entry reads width, polynomial and REFIN alone. -/
theorem tableEntry_congr {c d : Cfg} (hw : c.width = d.width) (hp : c.poly = d.poly) (hr : c.refin = d.refin)
    (b : Byte) : tableEntry c b = tableEntry d b := by
  simp only [tableEntry, hw, hp, hr]

/-- Settles O42: the four facts above. -/
theorem tableEntryBasics : Obligations.TableEntryBasics :=
  ⟨fun _ _ b hw hp hr => tableEntry_congr hw hp hr b, fun _ b _ hw => tableEntry_lt hw b, tableEntry_zero,
    fun _ b hlo _ hp => tableEntry_zero_poly hlo hp b⟩

/-- Settles O43: each stage of an entry, from the byte to the register and back, is linear over XOR. -/
theorem tableEntriesAreLinear : Obligations.TableEntriesAreLinear := by
  intro c a b
  cases hr : c.refin with
  | false =>
    simp only [tableEntry_plain hr, BitVec.setWidth_xor, BitVec.shiftLeft_xor_distrib, xor_and, divideBits_xor]
  | true =>
    simp only [tableEntry_reflected hr, BitVec.setWidth_xor, reflect_xor, BitVec.shiftLeft_xor_distrib, xor_and,
      divideBits_xor]

/-- The last turn of the loop taken off instead of the first. -/
theorem divideBits_succ_last (w : Nat) (poly : Word) (k : Nat) (r : Word) :
    divideBits w poly (k + 1) r = divideBit w poly (divideBits w poly k r) := by
  induction k generalizing r with
  | zero => rfl
  | succ k ih => exact ih (divideBit w poly r)

/-- R25, R100: the polynomial of a valid configuration fits in its width. -/
theorem poly_lt_of_valid {c : Cfg} (h : c.valid = true) : c.poly.toNat < 2 ^ c.width.toNat := by
  obtain ⟨-, -, hpoly, -, -⟩ := (valid_iff c).mp h
  exact lt_of_getLsbD hpoly

/-- R102: a byte at the top of the register fits in the width. -/
theorem byte_at_top_lt (b : Byte) {w : Nat} (hlo : 8 ≤ w) : (b.setWidth 64 <<< (w - 8)).toNat < 2 ^ w := by
  rw [BitVec.toNat_shiftLeft, BitVec.toNat_setWidth_of_le (by decide), Nat.shiftLeft_eq]
  calc b.toNat * 2 ^ (w - 8) % 2 ^ 64 ≤ b.toNat * 2 ^ (w - 8) := Nat.mod_le _ _
    _ < 2 ^ 8 * 2 ^ (w - 8) := Nat.mul_lt_mul_of_pos_right b.isLt (Nat.two_pow_pos _)
    _ = 2 ^ w := by rw [← pow_add, Nat.add_sub_cancel' hlo]

/-- R102: a lone 1 in the lowest bit of the byte leaves at the last turn, and the polynomial stays. -/
theorem divideBits_one {w : Nat} (hlo : 8 ≤ w) (hhi : w ≤ 64) {poly : Word} (hp : poly.toNat < 2 ^ w) :
    divideBits w poly 8 (1#64 <<< (w - 8)) = poly := by
  have hfits : (1#64 <<< (w - 8)).toNat < 2 ^ (w - 7) := by
    rw [BitVec.toNat_shiftLeft, Nat.shiftLeft_eq, BitVec.toNat_ofNat, Nat.mod_eq_of_lt (by decide : 1 < 2 ^ 64), Nat.one_mul]
    have hexp : w - 8 < w - 7 := by omega
    exact lt_of_le_of_lt (Nat.mod_le _ _) (Nat.pow_lt_pow_right (by decide) hexp)
  have hseven : divideBits w poly 7 (1#64 <<< (w - 8)) = 1#64 <<< (w - 1) := by
    rw [divideBits_shift w poly 7 _ (by omega) hfits, ← BitVec.shiftLeft_add]
    congr 1
    omega
  have htop : (1#64 <<< (w - 1)).getLsbD (w - 1) = true := by
    rw [getLsbD_one_shift, decide_eq_true (by omega), decide_eq_true rfl, Bool.and_self]
  rw [divideBits_succ_last, hseven, divideBit_eq, htop, if_pos rfl, ← BitVec.shiftLeft_add,
    Nat.sub_add_cancel (by omega), xor_and, shiftLeft_width_and_mask, BitVec.zero_xor, and_mask_of_lt hp]

/-- Settles O41: both anchors are the byte whose lowest bit alone enters the register; byte 80 enters reflected. -/
theorem tableEntryAnchors : Obligations.TableEntryAnchors := by
  intro c hvalid
  obtain ⟨hlo, hhi, -⟩ := (valid_iff c).mp hvalid
  have hone := divideBits_one hlo hhi (poly_lt_of_valid hvalid)
  have hbyte : (1#64 <<< (c.width.toNat - 8)) &&& mask c.width.toNat = 1#64 <<< (c.width.toNat - 8) :=
    and_mask_of_lt (byte_at_top_lt 0x01#8 hlo)
  refine ⟨fun hr => ?_, fun hr => ?_⟩
  · have henter : (0x01#8 : Byte).setWidth 64 = 1#64 := rfl
    rw [tableEntry_plain hr, henter, hbyte, hone]
  · have henter : reflect ((0x80#8 : Byte).setWidth 64) 8 = 1#64 := by decide
    rw [tableEntry_reflected hr, henter, hbyte, hone]

/-! ### The right-shifting table (R103 (e)) -/

/-- One turn of the loop of R102 is, reflected, one turn of the right-shifting loop. -/
theorem reflect_divideBit {w : Nat} (hlo : 0 < w) (hhi : w ≤ 64) (poly r : Word) :
    reflect (divideBit w poly r) w =
      if (reflect r w).getLsbD 0 then (reflect r w >>> 1) ^^^ reflect poly w else reflect r w >>> 1 := by
  have hout : (reflect r w).getLsbD 0 = r.getLsbD (w - 1) := by
    rw [getLsbD_reflect _ _ _ hhi, decide_eq_true hlo, Bool.true_and, Nat.sub_zero]
  rw [hout, divideBit_eq, reflect_and_mask _ hhi, reflect_xor, reflect_shiftLeft _ _ hhi]
  split <;> simp

/-- The loop of R102 is, reflected, the right-shifting loop. -/
theorem reflect_divideBits {w : Nat} (hlo : 0 < w) (hhi : w ≤ 64) (poly : Word) (k : Nat) (r : Word) :
    reflect (divideBits w poly k r) w = rightShiftBits (reflect poly w) k (reflect r w) := by
  induction k generalizing r with
  | zero => rfl
  | succ k ih => rw [divideBits, rightShiftBits, ih, reflect_divideBit hlo hhi]

/-- A reflected byte at the top of the register is, reflected, the byte itself. -/
theorem reflect_byte_at_top (b : Byte) {w : Nat} (hlo : 8 ≤ w) (hhi : w ≤ 64) :
    reflect (reflect (b.setWidth 64) 8 <<< (w - 8)) w = b.setWidth 64 := by
  obtain ⟨v, rfl⟩ := Nat.exists_eq_add_of_le' hlo
  rw [reflect_shiftLeft _ _ hhi, Nat.add_sub_cancel]
  apply BitVec.eq_of_getLsbD_eq
  intro i hi
  rw [BitVec.getLsbD_ushiftRight, BitVec.getLsbD_setWidth, decide_eq_true hi, Bool.true_and]
  by_cases h : i < 8
  · obtain ⟨j, hij, hji⟩ := exists_opposite h
    rw [getLsbD_reflect_of_add (j := j) _ hhi (by omega), getLsbD_reflect_of_add _ (by decide) hji,
      BitVec.getLsbD_setWidth, decide_eq_true hi, Bool.true_and]
  · rw [getLsbD_reflect_of_le _ hhi (by omega), BitVec.getLsbD_of_ge _ _ (Nat.le_of_not_lt h)]

/-- Settles O44: the entry is the reflection of the loop of R102, turn by turn, and the byte enters as it is. -/
theorem reflectedTableIsTheRightShiftingTable : Obligations.ReflectedTableIsTheRightShiftingTable := by
  intro c b hvalid hr
  obtain ⟨hlo, hhi, -⟩ := (valid_iff c).mp hvalid
  rw [tableEntry_reflected hr, reflect_divideBits (by omega) hhi, reflect_and_mask _ hhi, reflect_byte_at_top b hlo hhi]

/-! ### The step (R120, R121) -/

/-- R120 with REFIN = 0. -/
theorem crcStep_plain {c : Cfg} (h : c.refin = false) (t : Vector Word 256) (acc : Word) (d : Byte) :
    crcStep c t acc d =
      ((acc <<< 8) ^^^ tableAt t ((acc >>> (c.width.toNat - 8)).extractLsb' 0 8 ^^^ d)) &&& mask c.width.toNat := by
  simp [crcStep, h]

/-- R120 with REFIN = 1. -/
theorem crcStep_reflected {c : Cfg} (h : c.refin = true) (t : Vector Word 256) (acc : Word) (d : Byte) :
    crcStep c t acc d = ((acc >>> 8) ^^^ tableAt t (acc.extractLsb' 0 8 ^^^ d)) &&& mask c.width.toNat := by
  simp [crcStep, h]

/-- A value that fits in the width is its top byte and what is below it. -/
theorem split_top_byte {x : Word} {w : Nat} (hlo : 8 ≤ w) (hhi : w ≤ 64) (hx : x.toNat < 2 ^ w) :
    x = (((x >>> (w - 8)).extractLsb' 0 8).setWidth 64 <<< (w - 8)) ^^^ (x &&& mask (w - 8)) := by
  obtain ⟨v, rfl⟩ := Nat.exists_eq_add_of_le' hlo
  rw [Nat.add_sub_cancel]
  apply BitVec.eq_of_getLsbD_eq
  intro i hi
  rw [BitVec.getLsbD_xor, BitVec.getLsbD_and, getLsbD_mask, decide_eq_true hi, Bool.and_true]
  obtain hv | ⟨j, rfl⟩ := (Nat.lt_or_ge i v).imp_right Nat.exists_eq_add_of_le
  · rw [getLsbD_shiftLeft_of_lt _ hv, decide_eq_true hv, Bool.and_true, Bool.false_xor]
  · rw [getLsbD_shiftLeft_add _ hi, decide_eq_false (Nat.not_lt.mpr (Nat.le_add_right v j)), Bool.and_false,
      Bool.xor_false, BitVec.getLsbD_setWidth, BitVec.getLsbD_extractLsb', BitVec.getLsbD_ushiftRight, Nat.zero_add]
    by_cases h : j < 8
    · simp [h, Nat.lt_trans h (by decide : 8 < 64)]
    · rw [getLsbD_of_lt hx (by omega), Bool.and_false, Bool.and_false]

/-- A shift left within the width drops the bits that leave it. -/
theorem shiftLeft_and_mask_add (x : Word) (v k : Nat) :
    (x <<< k) &&& mask (v + k) = (x &&& mask v) <<< k := by
  apply BitVec.eq_of_getLsbD_eq
  intro i hi
  rw [BitVec.getLsbD_and, getLsbD_mask, decide_eq_true hi, Bool.and_true]
  obtain hk | ⟨j, rfl⟩ := (Nat.lt_or_ge i k).imp_right Nat.exists_eq_add_of_le
  · rw [getLsbD_shiftLeft_of_lt _ hk, getLsbD_shiftLeft_of_lt _ hk, Bool.false_and]
  · have hj : j < 64 := by omega
    rw [getLsbD_shiftLeft_add _ hi, getLsbD_shiftLeft_add _ hi, BitVec.getLsbD_and, getLsbD_mask, decide_eq_true hj,
      Bool.and_true, Nat.add_comm v k]
    simp only [Nat.add_lt_add_iff_left]

/-- R120 with REFIN = 0: the top byte of ACC and the data byte are divided together through the table, and what is below
them only shifts. -/
theorem crcStep_eq_divideBits {c : Cfg} (hlo : 8 ≤ c.width.toNat) (hhi : c.width.toNat ≤ 64) (hr : c.refin = false)
    {acc : Word} (hacc : acc.toNat < 2 ^ c.width.toNat) (d : Byte) :
    crcStep c (buildTable c) acc d =
      divideBits c.width.toNat c.poly 8 (acc ^^^ (d.setWidth 64 <<< (c.width.toNat - 8))) := by
  generalize htop : (acc >>> (c.width.toNat - 8)).extractLsb' 0 8 = top
  have hsplit : acc ^^^ (d.setWidth 64 <<< (c.width.toNat - 8)) =
      ((top ^^^ d).setWidth 64 <<< (c.width.toNat - 8)) ^^^ (acc &&& mask (c.width.toNat - 8)) := by
    conv_lhs => rw [split_top_byte hlo hhi hacc, htop]
    rw [BitVec.setWidth_xor, BitVec.shiftLeft_xor_distrib, BitVec.xor_assoc, BitVec.xor_assoc,
      BitVec.xor_comm (acc &&& _)]
  have hentry : divideBits c.width.toNat c.poly 8 ((top ^^^ d).setWidth 64 <<< (c.width.toNat - 8)) =
      tableEntry c (top ^^^ d) := by
    rw [tableEntry_plain hr, and_mask_of_lt (byte_at_top_lt _ hlo)]
  have hlow : divideBits c.width.toNat c.poly 8 (acc &&& mask (c.width.toNat - 8)) =
      (acc <<< 8) &&& mask c.width.toNat := by
    rw [divideBits_shift _ _ _ _ hlo (and_mask_lt _ _), ← shiftLeft_and_mask_add, Nat.sub_add_cancel hlo]
  rw [crcStep_plain hr, htop, tableAt_buildTable, hsplit, divideBits_xor, hentry, hlow, xor_and,
    and_mask_of_lt (tableEntry_lt hhi _), BitVec.xor_comm]

/-- The configuration with REFIN = 0 and all else kept. -/
def Cfg.plain (c : Cfg) : Cfg := { c with refin := false }

/-- R102: an entry with REFIN = 1 is, reflected, the plain entry of the reversed byte. -/
theorem reflect_tableEntry {c : Cfg} (hhi : c.width.toNat ≤ 64) (hr : c.refin = true) (b : Byte) :
    reflect (tableEntry c b) c.width.toNat = tableEntry c.plain b.reverse := by
  rw [tableEntry_reflected hr, reflect_reflect _ hhi, and_mask_of_lt (divideBits_lt _ _ (and_mask_lt _ _)), reflect_byte,
    tableEntry_plain (c := c.plain) rfl]
  rfl

/-- Reversal is linear over XOR. -/
theorem reverse_xor {n : Nat} (a b : BitVec n) : (a ^^^ b).reverse = a.reverse ^^^ b.reverse := by
  apply BitVec.eq_of_getLsbD_eq
  intro i _
  rw [BitVec.getLsbD_reverse, BitVec.getMsbD_xor, BitVec.getLsbD_xor, BitVec.getLsbD_reverse, BitVec.getLsbD_reverse]

/-- The top byte of the reflection is the lowest byte reversed. -/
theorem top_byte_reflect (x : Word) {w : Nat} (hlo : 8 ≤ w) (hhi : w ≤ 64) :
    (reflect x w >>> (w - 8)).extractLsb' 0 8 = (x.extractLsb' 0 8).reverse := by
  apply BitVec.eq_of_getLsbD_eq
  intro i hi
  obtain ⟨v, rfl⟩ := Nat.exists_eq_add_of_le' hlo
  obtain ⟨j, hij, hji⟩ := exists_opposite hi
  have hj : j < 8 := by omega
  have hlast : 8 - 1 - i = j := by omega
  rw [BitVec.getLsbD_extractLsb', BitVec.getLsbD_ushiftRight, Nat.add_sub_cancel, Nat.zero_add,
    getLsbD_reflect_of_add (j := j) _ hhi (by omega), BitVec.getLsbD_reverse, BitVec.getMsbD_eq_getLsbD, hlast,
    BitVec.getLsbD_extractLsb', Nat.zero_add, decide_eq_true hj, Bool.true_and]

/-- R120: a step with REFIN = 1 is, reflected, the plain step on the reflected register and the reversed byte. -/
theorem reflect_crcStep {c : Cfg} (hlo : 8 ≤ c.width.toNat) (hhi : c.width.toNat ≤ 64) (hr : c.refin = true)
    {acc : Word} (hacc : acc.toNat < 2 ^ c.width.toNat) (d : Byte) :
    reflect (crcStep c (buildTable c) acc d) c.width.toNat =
      crcStep c.plain (buildTable c.plain) (reflect acc c.width.toNat) d.reverse := by
  have hplain : c.plain.width = c.width := rfl
  have hentry (b : Byte) : tableEntry c.plain b &&& mask c.width.toNat = tableEntry c.plain b :=
    and_mask_of_lt (tableEntry_lt (c := c.plain) hhi b)
  rw [crcStep_reflected hr, reflect_and_mask _ hhi, reflect_xor, reflect_ushiftRight 8 hhi hacc, tableAt_buildTable,
    reflect_tableEntry hhi hr, crcStep_plain (c := c.plain) rfl, tableAt_buildTable, hplain,
    top_byte_reflect acc hlo hhi, reverse_xor, xor_and, hentry]

/-- Settles O45: with REFIN = 0 by linearity of division, with REFIN = 1 by reflecting the step. -/
theorem tableDrivenStepIsBitwiseDivision : Obligations.TableDrivenStepIsBitwiseDivision := by
  intro c acc d hvalid hacc
  obtain ⟨hlo, hhi, -⟩ := (valid_iff c).mp hvalid
  refine ⟨fun hr => crcStep_eq_divideBits hlo hhi hr hacc d, fun hr => ?_⟩
  rw [reflect_crcStep hlo hhi hr hacc, reflect_byte]
  exact crcStep_eq_divideBits (c := c.plain) hlo hhi rfl (reflect_lt acc hhi) d.reverse

/-- R121 (b): at width 8 nothing of ACC is left but the byte that is looked up. -/
theorem crcStep_width_eight {c : Cfg} (hw : c.width.toNat = 8) {acc : Word} (hacc : acc.toNat < 256) (d : Byte) :
    crcStep c (buildTable c) acc d = tableEntry c (acc.setWidth 8 ^^^ d) := by
  have hlow : acc.extractLsb' 0 8 = acc.setWidth 8 := (BitVec.setWidth_eq_extractLsb' (by decide)).symm
  have hentry (b : Byte) : tableEntry c b &&& mask 8 = tableEntry c b := by
    rw [← hw]
    exact and_mask_of_lt (tableEntry_lt (by omega) b)
  cases hr : c.refin with
  | false =>
    rw [crcStep_plain hr, tableAt_buildTable, hw, Nat.sub_self, BitVec.ushiftRight_zero, hlow, xor_and,
      shiftLeft_width_and_mask, BitVec.zero_xor, hentry]
  | true =>
    have hgone : acc >>> 8 = 0#64 := by
      apply BitVec.eq_of_toNat_eq
      rw [BitVec.toNat_ushiftRight, Nat.shiftRight_eq_div_pow, Nat.div_eq_of_lt hacc]
      rfl
    rw [crcStep_reflected hr, tableAt_buildTable, hw, hgone, BitVec.zero_xor, hlow, hentry]

/-- R121 (d): with the zero polynomial only the shift of ACC is left. -/
theorem crcStep_zero_poly {c : Cfg} (hlo : 8 ≤ c.width.toNat) (hp : c.poly = 0#64) {acc : Word}
    (hacc : acc.toNat < 2 ^ c.width.toNat) (d : Byte) :
    crcStep c (buildTable c) acc d = if c.refin then acc >>> 8 else (acc <<< 8) &&& mask c.width.toNat := by
  cases hr : c.refin with
  | false => rw [crcStep_plain hr, tableAt_buildTable, tableEntry_zero_poly hlo hp, BitVec.xor_zero]; rfl
  | true =>
    have hshift : (acc >>> 8).toNat < 2 ^ c.width.toNat := by
      rw [BitVec.toNat_ushiftRight, Nat.shiftRight_eq_div_pow]
      exact lt_of_le_of_lt (Nat.div_le_self _ _) hacc
    rw [crcStep_reflected hr, tableAt_buildTable, tableEntry_zero_poly hlo hp, BitVec.xor_zero, and_mask_of_lt hshift]
    rfl

/-- Settles O46: the three facts above. -/
theorem accumulationStepCorners : Obligations.AccumulationStepCorners :=
  ⟨crcStep_lt, fun _ _ d hw hacc => crcStep_width_eight hw hacc d,
    fun _ _ d hlo _ hp hacc => crcStep_zero_poly hlo hp hacc d⟩

end Sys2Proof.Machine

namespace Sys2Proof.Machine

/-! ### Feeding a message (R126, R128) -/

/-- R28: the lanes of DIN from lane `m` up are those of DIN shifted down. -/
theorem dinLane_shift (din : Word) (m k : Nat) : dinLane (din >>> (8 * m)) k = dinLane din (m + k) := by
  apply BitVec.eq_of_getLsbD_eq
  intro i _
  simp only [dinLane, BitVec.getLsbD_extractLsb', BitVec.getLsbD_ushiftRight, Nat.mul_add, Nat.add_assoc]

/-- R126: the lanes from `m` up are consumed after the first `m`. -/
theorem feedLanes_add (c : Cfg) (t : Vector Word 256) (din : Word) (m n : Nat) (acc : Word) :
    feedLanes c t din (m + n) acc = feedLanes c t (din >>> (8 * m)) n (feedLanes c t din m acc) := by
  induction n with
  | zero => rfl
  | succ n ih => rw [← Nat.add_assoc, feedLanes, feedLanes, ih, dinLane_shift]

/-- R126: with READY = 1 FEED consumes its lanes. -/
theorem exec_feed_ready {n : Byte} {s : State} (hn : n.toNat ≤ 8) (hr : s.status.ready = true) :
    exec (.feed n) s = .next { s with acc := feedLanes s.act s.table s.din n.toNat s.acc } := by
  rw [exec_feed_legal hn, requireReady_of_ready hr]

/-- Settles O51: the lanes of the second FEED are the later lanes of DIN. -/
theorem feedSplitsAnywhere : Obligations.FeedSplitsAnywhere := by
  intro s t u m n hmn hr ht hu
  have hsum : (m + n).toNat = m.toNat + n.toNat := by
    rw [BitVec.toNat_add, Nat.mod_eq_of_lt (by omega)]
  rw [exec_feed_ready (by omega) hr] at ht
  cases ht
  rw [exec_feed_ready (by omega) (by exact hr)] at hu
  cases hu
  rw [exec_feed_ready (by omega) hr, hsum, feedLanes_add]

/-- R75, R77: a step whose access is the write of a well-formed command's word runs that command. -/
theorem step_encode {s : State} {i : Instr} {rest : List Event} (hwf : i.wellFormed = true)
    (h : s.pending = .access (commandWrite (encode i)) :: rest) :
    step s = exec i { s with pending := rest, responses := .done :: s.responses } := by
  obtain ⟨hstep, -⟩ := stepRunsTheDecodedCommand
  refine hstep s rest _ i h ?_
  have hword : ((encode i).setWidth 64).extractLsb' 0 32 = encode i := by
    rw [← BitVec.setWidth_eq_extractLsb' (by decide), BitVec.setWidth_setWidth_of_le _ (by decide), BitVec.setWidth_eq]
  rw [hword]
  exact decodingAnEncodedCommandGivesItBack i hwf

/-- R55: a step whose access is an 8-byte write to DIN stores its value there. -/
theorem step_din_write {s : State} {v : Word} {rest : List Event} (h : s.pending = .access (.write 0x28#8 8 v) :: rest) :
    step s = .next { s with din := v, pending := rest, responses := .done :: s.responses } :=
  step_store (r := .din) h rfl rfl nofun

/-- R125, R126, R127: with READY = 1 a step that issues START, FEED or FINAL does its work and answers the write. -/
theorem step_start {s : State} {rest : List Event} (hr : s.status.ready = true)
    (h : s.pending = .access (commandWrite (encode .start)) :: rest) :
    step s = .next { s with acc := s.act.init, pending := rest, responses := .done :: s.responses } := by
  rw [step_encode rfl h, exec_start, requireReady_of_ready (by exact hr)]

theorem step_feed {s : State} {n : Byte} {rest : List Event} (hr : s.status.ready = true) (hn : n.toNat ≤ 8)
    (h : s.pending = .access (commandWrite (encode (.feed n))) :: rest) :
    step s = .next { s with acc := feedLanes s.act s.table s.din n.toNat s.acc, pending := rest,
                            responses := .done :: s.responses } := by
  rw [step_encode ((wellFormed_feed_iff n).mpr hn) h, exec_feed_ready hn (by exact hr)]

theorem step_final {s : State} {rest : List Event} (hr : s.status.ready = true)
    (h : s.pending = .access (commandWrite (encode .final)) :: rest) :
    step s = .next { s with result := finalize s.act s.acc, pending := rest, responses := .done :: s.responses } := by
  rw [step_encode rfl h, exec_final, requireReady_of_ready (by exact hr)]

/-- R78, R126: the two accesses of one group consume its bytes. -/
theorem run_feedAccesses {s : State} {g : Word × Byte} {rest : List Event} (hr : s.status.ready = true)
    (hn : g.2.toNat ≤ 8) (hp : s.pending = feedAccesses g ++ rest) :
    ∃ t, (∀ k, Host.Core.run Sys2Proof.core (k + 2) s = Host.Core.run Sys2Proof.core k t) ∧ t.pending = rest ∧
      Consumed (groupBytes g) s t := by
  let u : State := { s with
    din := g.1, pending := .access (commandWrite (encode (.feed g.2))) :: rest, responses := .done :: s.responses }
  have hwrite : step s = .next u := step_din_write hp
  have hfeed := step_feed (s := u) hr hn rfl
  exact ⟨_, fun k => (run_succ hwrite (k + 1)).trans (run_succ hfeed k), rfl, feedLanes_eq_foldl .., rfl, rfl, rfl, rfl⟩

/-- R128: the accesses of all the groups consume their bytes in order. -/
theorem run_groups {groups : List (Word × Byte)} {s : State} {rest : List Event} (hr : s.status.ready = true)
    (hn : ∀ g ∈ groups, g.2.toNat ≤ 8) (hp : s.pending = groups.flatMap feedAccesses ++ rest) :
    ∃ t, (∀ k, Host.Core.run Sys2Proof.core (k + 2 * groups.length) s = Host.Core.run Sys2Proof.core k t) ∧
      t.pending = rest ∧ Consumed (groups.flatMap groupBytes) s t := by
  induction groups generalizing s with
  | nil => exact ⟨s, fun _ => rfl, hp, consumed_nil s⟩
  | cons g groups ih =>
    rw [List.forall_mem_cons] at hn
    rw [List.flatMap_cons, List.append_assoc] at hp
    obtain ⟨u, hrun, hup, hu⟩ := run_feedAccesses hr hn.1 hp
    obtain ⟨t, hrun', htp, ht⟩ := ih (by rw [hu.status, hr]) hn.2 hup
    exact ⟨t, fun k => (hrun (k + 2 * groups.length)).trans (hrun' k), htp, hu.append ht⟩

/-- Settles O53: START loads the initial value, the groups are consumed, FINAL finalizes; by the invariant of R36 TABLE
is the table of the active configuration. -/
theorem calculateLaw : Obligations.CalculateLaw := by
  intro s groups hinv hr hn hp
  have htable : s.table = buildTable s.act := by
    obtain ⟨-, htab, -⟩ := hinv hr
    exact table_ext fun b => (htab b).trans (tableAt_buildTable s.act b).symm
  let started : State := { s with
    acc := s.act.init, pending := groups.flatMap feedAccesses ++ [.access (commandWrite (encode .final))],
    responses := .done :: s.responses }
  have hstart : step s = .next started := step_start hr hp
  obtain ⟨u, hrun, hup, hu⟩ := run_groups (s := started) hr hn rfl
  have hfinal := step_final (by rw [hu.status]; exact hr) hup
  refine ⟨{ u with result := finalize u.act u.acc, pending := [], responses := .done :: u.responses }, ?_, rfl, ?_,
    hu.status, hu.act, hu.table, hu.staged⟩
  · calc Host.Core.run Sys2Proof.core (2 * groups.length + 2) s
        = Host.Core.run Sys2Proof.core (2 * groups.length + 1) started := run_succ hstart _
      _ = Host.Core.run Sys2Proof.core (1 + 2 * groups.length) started := by rw [Nat.add_comm]
      _ = Host.Core.run Sys2Proof.core 1 u := hrun 1
      _ = _ := run_succ hfinal 0
  · change finalize u.act u.acc = calculate s.act (groups.flatMap groupBytes)
    rw [calculate, hu.act, hu.acc, ← htable]

end Sys2Proof.Machine
